-- ==== Sys2Proof/Word.lean ====
section
/-! DEFINITION. The word types of the MIC-1 block (spec/00_scope.md R6, R10; spec/10_state.md R20). -/

namespace Sys2Proof

/-- A data word, a register, a latch: 16 bits (R6 WORD_BITS, R10, R20). -/
abbrev Word := BitVec 16

/-- A register-file index as the 4-bit fields A, B and C name it (R6 NREGS, R80). -/
abbrev RegIdx := BitVec 4

/-- A control-store address, the width of MPC and of the ADDR field (R6 MPC_BITS). -/
abbrev MicroAddr := BitVec 9

/-- An encoded microinstruction (R6 UINSTR_BITS). -/
abbrev MicroWord := BitVec 33

end Sys2Proof
end

