-- ==== Sys2Proof/Syntax.lean ====
section
/-! DEFINITION. The syntax of the MIC-1 block: the microinstruction record with its thirteen fields (spec/30_encoding.md R80),
and the instructions, one constructor per row of spec/opcode_table.json (spec/00_scope.md R5: each field value is one
"instruction"). A word of the control store holds several of them at once; Decode.lean says which. -/

namespace Sys2Proof

/-- A microinstruction as a record of fields whose values are any naturals, as `encode` takes it (R80, R82).
A field not listed is 0 (R100). -/
structure Micro where
  amux : Nat := 0
  cond : Nat := 0
  alu  : Nat := 0
  sh   : Nat := 0
  mbr  : Nat := 0
  mar  : Nat := 0
  rd   : Nat := 0
  wr   : Nat := 0
  enc  : Nat := 0
  c    : Nat := 0
  b    : Nat := 0
  a    : Nat := 0
  addr : Nat := 0
deriving DecidableEq, Repr

/-- The rows of spec/opcode_table.json. An operand is a field the row's own action reads: C for ENC (R172), ADDR for
COND 0, 1 and 2 (R190 to R192); ADDR is ignored by COND 3 (R193). Fields A and B are read by phase 2 of every word,
whatever its rows (R143), so they are no operand of a row. -/
inductive Instr where
  | aluAdd
  | aluAnd
  | aluPass
  | aluNot
  | shNone
  | shSra1
  | shSll8
  | shReserved3
  | amuxA
  | amuxMbr
  | marw
  | mbrw
  | enc (c : RegIdx)
  | rd
  | wr
  | condNo (addr : MicroAddr)
  | condJamn (addr : MicroAddr)
  | condJamz (addr : MicroAddr)
  | condDecode
  | nopAllZero
deriving DecidableEq, Repr

end Sys2Proof
end

