-- ==== Sys2Proof/Decode.lean ====
section
/-! DEFINITION. The microinstruction codec (spec/30_encoding.md R81 to R83), the rows of the opcode table that a word holds, in
the order in which the phases run them (spec/41_engine_cycle.md R144, R146), and the table's own masks and patterns. -/

namespace Sys2Proof

/-- `w[hi:lo]` with `width = hi - lo + 1` (spec/00_scope.md R9). -/
def bitField (w lo width : Nat) : Nat := (w >>> lo) % 2 ^ width

/-- `mask_n(v)` (R9). -/
def maskTo (n v : Nat) : Nat := v % 2 ^ n

/-- R83. Total: every natural decodes, and bits 33 and above are ignored. -/
def decode (w : Nat) : Micro where
  amux := bitField w 32 1
  cond := bitField w 30 2
  alu  := bitField w 28 2
  sh   := bitField w 26 2
  mbr  := bitField w 25 1
  mar  := bitField w 24 1
  rd   := bitField w 23 1
  wr   := bitField w 22 1
  enc  := bitField w 21 1
  c    := bitField w 17 4
  b    := bitField w 13 4
  a    := bitField w 9 4
  addr := bitField w 0 9

/-- The record with every field cut to its width (R84, `mask(f)`). -/
def Micro.masked (f : Micro) : Micro where
  amux := maskTo 1 f.amux
  cond := maskTo 2 f.cond
  alu  := maskTo 2 f.alu
  sh   := maskTo 2 f.sh
  mbr  := maskTo 1 f.mbr
  mar  := maskTo 1 f.mar
  rd   := maskTo 1 f.rd
  wr   := maskTo 1 f.wr
  enc  := maskTo 1 f.enc
  c    := maskTo 4 f.c
  b    := maskTo 4 f.b
  a    := maskTo 4 f.a
  addr := maskTo 9 f.addr

/-- R82. An over-wide field is cut to its width. -/
def encode (f : Micro) : Nat :=
  (maskTo 1 f.amux <<< 32) ||| (maskTo 2 f.cond <<< 30) ||| (maskTo 2 f.alu <<< 28) |||
  (maskTo 2 f.sh <<< 26) ||| (maskTo 1 f.mbr <<< 25) ||| (maskTo 1 f.mar <<< 24) |||
  (maskTo 1 f.rd <<< 23) ||| (maskTo 1 f.wr <<< 22) ||| (maskTo 1 f.enc <<< 21) |||
  (maskTo 4 f.c <<< 17) ||| (maskTo 4 f.b <<< 13) ||| (maskTo 4 f.a <<< 9) |||
  maskTo 9 f.addr

/-! ### The rows a microinstruction holds -/

/-- Field ALU (R122 to R125). -/
def Micro.aluRow (f : Micro) : Instr :=
  if f.alu = 0 then .aluAdd else if f.alu = 1 then .aluAnd else if f.alu = 2 then .aluPass else .aluNot

/-- Field SH (R126 to R129). -/
def Micro.shRow (f : Micro) : Instr :=
  if f.sh = 0 then .shNone else if f.sh = 1 then .shSra1 else if f.sh = 2 then .shSll8 else .shReserved3

/-- Field AMUX (R145). -/
def Micro.amuxRow (f : Micro) : Instr := if f.amux = 1 then .amuxMbr else .amuxA

/-- Field COND with the ADDR it uses (R190 to R193). -/
def Micro.condRow (f : Micro) : Instr :=
  if f.cond = 0 then .condNo (BitVec.ofNat 9 f.addr)
  else if f.cond = 1 then .condJamn (BitVec.ofNat 9 f.addr)
  else if f.cond = 2 then .condJamz (BitVec.ofNat 9 f.addr)
  else .condDecode

/-- The enable rows that are set, in the order of steps 1 to 5 of WRITEBACK_NEXT (R146). -/
def Micro.enableRows (f : Micro) : List Instr :=
  (if f.mar = 1 then [.marw] else []) ++
  ((if f.mbr = 1 then [.mbrw] else []) ++
  ((if f.enc = 1 then [.enc (BitVec.ofNat 4 f.c)] else []) ++
  ((if f.rd = 1 then [.rd] else []) ++
  (if f.wr = 1 then [.wr] else []))))

/-- The rows ALU_EXEC runs, in R144's order: the A-side select, the ALU stage, the shift stage. -/
def Micro.aluRows (f : Micro) : List Instr := [f.amuxRow, f.aluRow, f.shRow]

/-- The rows WRITEBACK_NEXT runs, in R146's order. -/
def Micro.writebackRows (f : Micro) : List Instr := f.enableRows ++ [f.condRow]

/-- The row of the whole all-zero word (R86). -/
def Micro.wholeWordRows (f : Micro) : List Instr := if f = {} then [.nopAllZero] else []

/-- Every row of the opcode table that the microinstruction holds. -/
def Micro.rows (f : Micro) : List Instr := f.aluRows ++ f.writebackRows ++ f.wholeWordRows

/-! ### The opcode table's own columns -/

/-- Column "mask" of spec/opcode_table.json. -/
def Instr.mask : Instr → Nat
  | .aluAdd | .aluAnd | .aluPass | .aluNot => 0x030000000
  | .shNone | .shSra1 | .shSll8 | .shReserved3 => 0x00C000000
  | .amuxA | .amuxMbr => 0x100000000
  | .marw => 0x001000000
  | .mbrw => 0x002000000
  | .enc _ => 0x000200000
  | .rd => 0x000800000
  | .wr => 0x000400000
  | .condNo _ | .condJamn _ | .condJamz _ | .condDecode => 0x0C0000000
  | .nopAllZero => 0x1FFFFFFFF

/-- Column "match" of spec/opcode_table.json. -/
def Instr.pattern : Instr → Nat
  | .aluAdd => 0x000000000
  | .aluAnd => 0x010000000
  | .aluPass => 0x020000000
  | .aluNot => 0x030000000
  | .shNone => 0x000000000
  | .shSra1 => 0x004000000
  | .shSll8 => 0x008000000
  | .shReserved3 => 0x00C000000
  | .amuxA => 0x000000000
  | .amuxMbr => 0x100000000
  | .marw => 0x001000000
  | .mbrw => 0x002000000
  | .enc _ => 0x000200000
  | .rd => 0x000800000
  | .wr => 0x000400000
  | .condNo _ => 0x000000000
  | .condJamn _ => 0x040000000
  | .condJamz _ => 0x080000000
  | .condDecode => 0x0C0000000
  | .nopAllZero => 0x000000000

/-- The bits of the row's operand field (R81: C at 20:17, ADDR at 8:0). -/
def Instr.operandBits : Instr → Nat
  | .enc c => c.toNat <<< 17
  | .condNo a | .condJamn a | .condJamz a => a.toNat
  | .aluAdd | .aluAnd | .aluPass | .aluNot | .shNone | .shSra1 | .shSll8 | .shReserved3 | .amuxA | .amuxMbr
  | .marw | .mbrw | .rd | .wr | .condDecode | .nopAllZero => 0

/-- The bits where the row's operand field stands. -/
def Instr.operandMask : Instr → Nat
  | .enc _ => 0x0001E0000
  | .condNo _ | .condJamn _ | .condJamz _ => 0x0000001FF
  | .aluAdd | .aluAnd | .aluPass | .aluNot | .shNone | .shSra1 | .shSll8 | .shReserved3 | .amuxA | .amuxMbr
  | .marw | .mbrw | .rd | .wr | .condDecode | .nopAllZero => 0

/-- The word matches the row: its pattern under its mask, and the operand in its field. -/
def Instr.matchesWord (i : Instr) (w : Nat) : Bool :=
  w &&& i.mask == i.pattern && w &&& i.operandMask == i.operandBits

/-- The word that holds the row and nothing else: the row's pattern with its operand, every other bit 0. -/
def encodeRow (i : Instr) : Nat := i.pattern ||| i.operandBits

/-! ### One row for a word -/

/-- Whether the row is its field's value 0, which every word with nothing else in that field holds. -/
def Instr.isFieldZero : Instr → Bool
  | .aluAdd | .shNone | .amuxA | .condNo _ => true
  | .aluAnd | .aluPass | .aluNot | .shSra1 | .shSll8 | .shReserved3 | .amuxMbr | .marw | .mbrw | .enc _ | .rd | .wr
  | .condJamn _ | .condJamz _ | .condDecode | .nopAllZero => false

/-- The first row of the word, in the order the phases run them, that is not a field's value 0; the whole-word row for
the all-zero word; COND_NO for a word whose only non-zero fields are A, B, C or ADDR. DESIGN CHOICE (log 22): a word holds
several rows, and this names one of them; the machine runs them all and never uses this choice. -/
def Micro.leadingRow (f : Micro) : Instr :=
  ((f.rows.filter fun i => !i.isFieldZero).head?).getD f.condRow

/-- The row of the opcode table that a word of the control store leads with: `nbits` of its bits are given, all above
are 0, and bits 33 and above are ignored (R83). -/
def decodeTableWord (nbits w : Nat) : Option Instr := some (decode (maskTo nbits w)).leadingRow

end Sys2Proof
end

