-- ==== Sys2Proof/Config.lean ====
section
/-! DEFINITION. What is fixed for one machine: the parameters of spec/00_scope.md R6, and the one free value, SHIFT3. -/

namespace Sys2Proof

/-- The implementation parameters (R6). The two tables are lists of (key, value) pairs, a partial map each
(spec/10_state.md R34, R35); `Config.WellFormed` has their form (spec/30_encoding.md R89, R91). -/
structure Config where
  /-- MEMORY_SIZE: words of main memory. -/
  memorySize   : Nat
  /-- BLOCK_SIZE: words per cache line. -/
  blockSize    : Nat
  /-- CACHE_SIZE: cache lines. -/
  cacheSize    : Nat
  /-- CONTROL_STORE: the populated slots, (address, encoded word). -/
  controlStore : List (Nat × Nat)
  /-- OPCODE_MAP: the mapped keys, (key, control-store address). -/
  opcodeMap    : List (Nat × Nat)
  /-- Which of R129's two treatments of SH = 3 the machine has: `false` the refusal mark, `true` the parameter SHIFT3. -/
  acceptShift3 : Bool
deriving DecidableEq, Repr

/-- The sizes of the spec's test vectors (R6: MEMORY_SIZE 4096, BLOCK_SIZE 4, CACHE_SIZE 8) with nothing authored and
SH = 3 refused. DESIGN CHOICE (logs 3, 4): the spec leaves the sizes and both tables open. -/
def Config.reference : Config where
  memorySize   := 4096
  blockSize    := 4
  cacheSize    := 8
  controlStore := []
  opcodeMap    := []
  acceptShift3 := false

/-- SHIFT3 (R129, decision D11): the OPEN function of a machine that accepts SH = 3. A free value: no body, so nothing
about it can be proved (log 11). -/
opaque Config.shift3 : Word → Word

end Sys2Proof
end

