-- ==== Sys2Proof/Machine/State.lean ====
section
/-! DEFINITION. The state of the MIC-1 block (spec/10_state.md R40) as plain data, the outcomes' reason types, and the state
after construction, the only reset (spec/70_reset_and_hazards.md R230, R231). -/

namespace Sys2Proof.Machine

/-- The stored registers of the register file, under their names (R22). Slot 0 and the read-only slots 8..12 store nothing:
`Regs.read` gives their fixed values and `Regs.write` drops writes to them (R23 to R25; log 9). -/
structure Regs where
  pc   : Word
  ir   : Word
  sp   : Word
  ac   : Word
  mar  : Word
  mbr  : Word
  tir  : Word
  scr0 : Word
  scr1 : Word
  scr2 : Word
deriving DecidableEq, Repr

/-- Main memory (R36) as the words that are not 0, each with its address, addresses strictly rising. A word not listed is
0: "linear array of MEMORY_SIZE words, zero-initialized" (log 8). -/
abbrev Memory := List (Nat × Word)

/-- A cache line (R37). -/
structure CacheLine where
  valid : Bool
  tag   : Nat
  data  : List Word
deriving DecidableEq, Repr

/-- The sub-cycle counter (R31): the phase the next step runs. -/
inductive Phase where
  | fetchMicro
  | decodeRead
  | aluExec
  | writebackNext
deriving DecidableEq, Repr

/-- The counter's value, 1 to 4 (R31). -/
def Phase.toNat : Phase → Nat
  | .fetchMicro => 1
  | .decodeRead => 2
  | .aluExec => 3
  | .writebackNext => 4

/-- A recorded fault (R38; spec/60_exceptions.md R211 to R213). The engine keeps stepping after either. -/
inductive FaultEvent where
  /-- Raised by phase 1 at an empty control-store slot (R211). -/
  | unpopulatedControlStore (mpc : MicroAddr)
  /-- Raised by phase 4 with COND = 3 when the key has no opcode-map entry (R212). -/
  | unmappedOpcode (ir : Word) (key : Nat)
deriving DecidableEq, Repr

/-- Why the refusal mark is set (R39); the one reason is SH = 3 in an executed microinstruction (R129). -/
inductive RefusalReason where
  | reservedShift
deriving DecidableEq, Repr

/-- The whole state (R40). `cfg` holds the parameters, which are configuration and not state (R40): they stand here
because a step takes a state alone, and no step changes them (log 3). -/
structure State where
  cfg       : Config
  regs      : Regs
  mem       : Memory
  lines     : List CacheLine
  mpc       : MicroAddr
  mir       : MicroWord
  phase     : Phase
  n         : Bool
  z         : Bool
  latchA    : Word
  latchB    : Word
  aluResult : Word
  faults    : List FaultEvent
  refused   : Option RefusalReason
deriving DecidableEq, Repr

/-- The faults that stop the machine. There are none: both hardware faults are recorded and the engine keeps stepping
(R210, R148), so nothing raises one. -/
inductive Fault where
deriving DecidableEq, Repr

/-- Why an instruction has no meaning in the model. -/
inductive Refusal where
  /-- Raised by an arm of `exec` for an instruction without a meaning; safe. No arm raises it. -/
  | notModelled (mnemonic : String)
deriving DecidableEq, Repr

/-- The mutable registers after construction (R22, R231; decision D15, log 6). -/
def Regs.reset : Regs where
  pc   := 0
  ir   := 0
  sp   := 0
  ac   := 0
  mar  := 0
  mbr  := 0
  tir  := 0
  scr0 := 0
  scr1 := 0
  scr2 := 0

/-- A cache line after construction (R37, R231; decision D16, log 7). -/
def CacheLine.reset (blockSize : Nat) : CacheLine where
  valid := false
  tag   := 0
  data  := List.replicate blockSize 0

/-- The state construction sets, before the host's preload (R231; decisions D12 to D16, logs 5 to 7, 11, 16, 17). -/
def State.initial (cfg : Config) : State where
  cfg       := cfg
  regs      := Regs.reset
  mem       := []
  lines     := List.replicate cfg.cacheSize (CacheLine.reset cfg.blockSize)
  mpc       := 0
  mir       := 0
  phase     := .fetchMicro
  n         := false
  z         := false
  latchA    := 0
  latchB    := 0
  aluResult := 0
  faults    := []
  refused   := none

/-- The reset state of the machine with the spec's reference sizes and nothing authored (R231; logs 3, 4). -/
def State.reset : State := State.initial Config.reference

end Sys2Proof.Machine
end

