-- ==== Sys2Proof/Machine/Ops.lean ====
section
/-! DEFINITION. The named operations over the state: the register file (spec/10_state.md R22 to R25), the control store and the
opcode map (R34, R35), main memory and the cache (spec/20_memory.md R51 to R63), fault recording (spec/60_exceptions.md
R213), and the sequencing of outcomes. -/

namespace Sys2Proof.Machine

/-! ### Register file -/

/-- Index layout (R22; decisions D1, D25, log 9). -/
def Slot.none : RegIdx := 0
def Slot.pc : RegIdx := 1
def Slot.ir : RegIdx := 2
def Slot.sp : RegIdx := 3
def Slot.ac : RegIdx := 4
def Slot.mar : RegIdx := 5
def Slot.mbr : RegIdx := 6
def Slot.tir : RegIdx := 7
def Slot.zero : RegIdx := 8
def Slot.plus1 : RegIdx := 9
def Slot.minus1 : RegIdx := 10
def Slot.amask : RegIdx := 11
def Slot.smask : RegIdx := 12
def Slot.scr0 : RegIdx := 13
def Slot.scr1 : RegIdx := 14
def Slot.scr2 : RegIdx := 15

/-- `x[i]` (R24): the slot's word; 0 for slot 0; the constants of R23 for slots 8..12. -/
def Regs.read (r : Regs) (i : RegIdx) : Word :=
  match i.toNat with
  | 1 => r.pc
  | 2 => r.ir
  | 3 => r.sp
  | 4 => r.ac
  | 5 => r.mar
  | 6 => r.mbr
  | 7 => r.tir
  | 8 => 0x0000
  | 9 => 0x0001
  | 10 => 0xFFFF
  | 11 => 0x0FFF
  | 12 => 0x00FF
  | 13 => r.scr0
  | 14 => r.scr1
  | 15 => r.scr2
  | _ => 0

/-- `x[i] <- v` (R25): dropped by the read-only slots 8..12 and by slot 0. -/
def Regs.write (r : Regs) (i : RegIdx) (v : Word) : Regs :=
  match i.toNat with
  | 1 => { r with pc := v }
  | 2 => { r with ir := v }
  | 3 => { r with sp := v }
  | 4 => { r with ac := v }
  | 5 => { r with mar := v }
  | 6 => { r with mbr := v }
  | 7 => { r with tir := v }
  | 13 => { r with scr0 := v }
  | 14 => { r with scr1 := v }
  | 15 => { r with scr2 := v }
  | _ => r

/-- `x[i]` of the state. -/
def State.readReg (s : State) (i : RegIdx) : Word := s.regs.read i

/-- `x[i] <- v` on the state. -/
def State.writeReg (s : State) (i : RegIdx) (v : Word) : State := { s with regs := s.regs.write i v }

end Sys2Proof.Machine

namespace Sys2Proof

/-! ### Control store and opcode map -/

/-- `CS(a)` (R34): the word of a populated slot, `none` for an empty one. -/
def Config.controlSlot (cfg : Config) (a : MicroAddr) : Option MicroWord :=
  (cfg.controlStore.lookup a.toNat).map (BitVec.ofNat 33)

/-- `OM(k)` (R35): the mapped address, `none` for an unmapped key. -/
def Config.mapped (cfg : Config) (key : Nat) : Option MicroAddr :=
  (cfg.opcodeMap.lookup key).map (BitVec.ofNat 9)

/-- Put an entry into a table whose keys rise, in place of an entry with the same key. -/
def tableInsert : List (Nat × Nat) → Nat → Nat → List (Nat × Nat)
  | [], k, v => [(k, v)]
  | (k', v') :: t, k, v =>
    if k < k' then (k, v) :: (k', v') :: t
    else if k = k' then (k, v) :: t
    else (k', v') :: tableInsert t k v

/-! ### Address decomposition -/

/-- R58. -/
def Config.offsetOf (cfg : Config) (addr : Nat) : Nat := addr % cfg.blockSize

/-- R58. -/
def Config.indexOf (cfg : Config) (addr : Nat) : Nat := addr / cfg.blockSize % cfg.cacheSize

/-- R58 (decision D8, log 13). -/
def Config.tagOf (cfg : Config) (addr : Nat) : Nat := addr / (cfg.blockSize * cfg.cacheSize)

end Sys2Proof

namespace Sys2Proof.Machine

/-! ### Main memory -/

/-- The word at an address; one that is not listed is 0 (R36). -/
def Memory.read (m : Memory) (a : Nat) : Word := (m.lookup a).getD 0

/-- The memory with one word stored, in the canonical form: addresses rise, and no word listed is 0. -/
def Memory.write : Memory → Nat → Word → Memory
  | [], a, v => if v = 0 then [] else [(a, v)]
  | (b, w) :: m, a, v =>
    if a < b then (if v = 0 then (b, w) :: m else (a, v) :: (b, w) :: m)
    else if a = b then (if v = 0 then m else (a, v) :: m)
    else (b, w) :: Memory.write m a v

/-- The canonical form: addresses strictly rising, no listed word equal to what an unlisted address reads as. -/
abbrev Memory.wf (m : Memory) : Prop := (m.Pairwise fun p q => p.1 < q.1) ∧ ∀ p ∈ m, p.2 ≠ 0

/-- MemRead (R51): 0 at or above MEMORY_SIZE. -/
def State.memRead (s : State) (addr : Nat) : Word :=
  if addr < s.cfg.memorySize then s.mem.read addr else 0

/-- MemWrite (R52): no effect at or above MEMORY_SIZE. -/
def State.memWrite (s : State) (addr : Nat) (v : Word) : State :=
  if addr < s.cfg.memorySize then { s with mem := s.mem.write addr v } else s

/-- GetBlock (R53): BLOCK_SIZE words from `start`, zero past the end of memory. -/
def State.getBlock (s : State) (start : Nat) : List Word :=
  (List.range s.cfg.blockSize).map fun i => s.memRead (start + i)

/-! ### Cache -/

/-- `lines[i]`. -/
def State.line (s : State) (i : Nat) : CacheLine := s.lines.getD i (CacheLine.reset s.cfg.blockSize)

/-- `L.data[o]`. -/
def CacheLine.word (l : CacheLine) (o : Nat) : Word := l.data.getD o 0

/-- The hit test of R59 and R60, which is the hit indicator of R63 (decision D10, log 15). -/
def State.cacheHit (s : State) (addr : Nat) : Bool :=
  (s.line (s.cfg.indexOf addr)).valid && (s.line (s.cfg.indexOf addr)).tag == s.cfg.tagOf addr

/-- The line a read miss installs (R59). -/
def State.refillLine (s : State) (addr : Nat) : CacheLine where
  valid := true
  tag   := s.cfg.tagOf addr
  data  := s.getBlock (addr - s.cfg.offsetOf addr)

/-- CacheRead (R59): the word, the hit indicator, and the state after. -/
def State.cacheRead (s : State) (addr : Nat) : Word × Bool × State :=
  if s.cacheHit addr then
    ((s.line (s.cfg.indexOf addr)).word (s.cfg.offsetOf addr), true, s)
  else
    ((s.refillLine addr).word (s.cfg.offsetOf addr), false,
      { s with lines := s.lines.set (s.cfg.indexOf addr) (s.refillLine addr) })

/-- The line a write hit to a backed address leaves (R60). -/
def CacheLine.store (l : CacheLine) (o : Nat) (v : Word) : CacheLine := { l with data := l.data.set o v }

/-- CacheWrite (R60; decision D9, log 14): the hit indicator and the state after. Memory first, always; the line only on a
hit to a backed address. -/
def State.cacheWrite (s : State) (addr : Nat) (v : Word) : Bool × State :=
  let t := s.memWrite addr v
  (s.cacheHit addr,
    if s.cacheHit addr && decide (addr < s.cfg.memorySize) then
      { t with
        lines :=
          s.lines.set (s.cfg.indexOf addr) ((s.line (s.cfg.indexOf addr)).store (s.cfg.offsetOf addr) v) }
    else t)

/-! ### Fault recording -/

/-- The code of a fault event (R213). -/
def FaultEvent.code : FaultEvent → Nat
  | .unpopulatedControlStore _ => 1
  | .unmappedOpcode _ _ => 2

/-- `raise F(info)` (R213): append the event and do nothing else. Both faults are taken through this; no state is saved and
there is nothing to return to (R218, R219). -/
def State.raise (s : State) (e : FaultEvent) : State := { s with faults := s.faults ++ [e] }

/-! ### Phase counter and outcomes -/

/-- `(phase mod 4) + 1` (R31, R141). -/
def Phase.next : Phase → Phase
  | .fetchMicro => .decodeRead
  | .decodeRead => .aluExec
  | .aluExec => .writebackNext
  | .writebackNext => .fetchMicro

/-- The microinstruction that MIR holds (R30, R141). -/
def State.micro (s : State) : Micro := decode s.mir.toNat

/-- The end of R141: a state that is not refused moves on to the next phase. -/
def State.endStep (s : State) : State := if s.refused.isSome then s else { s with phase := s.phase.next }

/-- An outcome of the host's interface for this machine. -/
abbrev Result := Host.Outcome State Fault Refusal

/-- Go on with `k` from a next state; a fault or a refusal stays. -/
def Result.andThen (o : Result) (k : State → Result) : Result :=
  match o with
  | .next s => k s
  | .fault r => .fault r
  | .refused r => .refused r

end Sys2Proof.Machine
end

