-- ==== Sys2Proof/Machine/Flags.lean ====
section
/-! DEFINITION. The flags N and Z (spec/40_alu_shifter.md R130, R131: there is no other). -/

namespace Sys2Proof.Machine

/-- N: bit 15 of the final 16-bit result. -/
def flagN (result : Word) : Bool := result.getLsbD 15

/-- Z: the final 16-bit result is 0. -/
def flagZ (result : Word) : Bool := result == 0

/-- The end of ALU_EXEC (R144): the shifted result is kept in aluResult and both flags are computed from it. -/
def State.finishAlu (s : State) (result : Word) : State :=
  { s with aluResult := result, n := flagN result, z := flagZ result }

end Sys2Proof.Machine
end

