-- ==== Sys2Proof/Machine/Operands.lean ====
section
/-! DEFINITION. Fetch and operands: FETCH_MICRO and DECODE_READ (spec/41_engine_cycle.md R142, R143), the A-side select (R145),
and the dispatch key of IR (spec/30_encoding.md R90). -/

namespace Sys2Proof.Machine

/-- FETCH_MICRO (R142, R211): MIR gets the word at MPC; an empty slot gives the all-zero word and a recorded fault. -/
def State.fetchMicro (s : State) : State :=
  match s.cfg.controlSlot s.mpc with
  | some w => { s with mir := w }
  | none => { s with mir := 0 }.raise (.unpopulatedControlStore s.mpc)

/-- DECODE_READ (R143): the registers that fields A and B name are latched. -/
def State.decodeRead (s : State) (f : Micro) : State :=
  { s with latchA := s.readReg (BitVec.ofNat 4 f.a), latchB := s.readReg (BitVec.ofNat 4 f.b) }

/-- AMUX = 1 (R145): the A input becomes x[MBR]. -/
def State.selectMbr (s : State) : State := { s with latchA := s.readReg Slot.mbr }

/-- The dispatch key (R90): the top 4 bits of IR, or its top 8 when those 4 are all 1. -/
def opkey (ir : Word) : Nat := if bitField ir.toNat 12 4 = 0xF then bitField ir.toNat 8 8 else bitField ir.toNat 12 4

end Sys2Proof.Machine
end

