-- ==== Sys2Proof/Machine/Alu.lean ====
section
/-! DEFINITION. The rows ALU_* (spec/40_alu_shifter.md R122 to R125) and AMUX_* (spec/41_engine_cycle.md R145). Within one phase 3
the rows run in R144's order, AMUX, ALU, SH; the ALU stage's output stands in aluResult until the shift stage of the same
step replaces it (log 2). -/

namespace Sys2Proof.Machine

/-- R122. -/
def aluAdd (a b : Word) : Word := a + b

/-- R123. -/
def aluAnd (a b : Word) : Word := a &&& b

/-- R124. -/
def aluPass (a : Word) : Word := a

/-- R125. -/
def aluNot (a : Word) : Word := ~~~a

/-- The ALU stage's output, on its way to the shift stage (R120). -/
def State.aluStage (s : State) (w : Word) : State := { s with aluResult := w }

/-- ALU_ADD (R122). -/
def execAluAdd (s : State) : Result := .next (s.aluStage (aluAdd s.latchA s.latchB))

/-- ALU_AND (R123). -/
def execAluAnd (s : State) : Result := .next (s.aluStage (aluAnd s.latchA s.latchB))

/-- ALU_PASS (R124). -/
def execAluPass (s : State) : Result := .next (s.aluStage (aluPass s.latchA))

/-- ALU_NOT (R125). -/
def execAluNot (s : State) : Result := .next (s.aluStage (aluNot s.latchA))

/-- AMUX_A (R145): the A input is latchA as phase 2 loaded it. -/
def execAmuxA (s : State) : Result := .next s

/-- AMUX_MBR (R145). -/
def execAmuxMbr (s : State) : Result := .next s.selectMbr

end Sys2Proof.Machine
end

