-- ==== Sys2Proof/Machine/NextAddress.lean ====
section
/-! DEFINITION. The rows COND_*: step 6 of WRITEBACK_NEXT (spec/43_next_address.md R190 to R193). -/

namespace Sys2Proof.Machine

/-- `MPC <- target` (spec/00_scope.md R11). -/
def State.goTo (s : State) (target : MicroAddr) : State := { s with mpc := target }

/-- The JAM target (R191, R192): ADDR with bit 8 set when the flag is. -/
def jamTarget (addr : MicroAddr) (flag : Bool) : MicroAddr := addr ||| (if flag then 0x100 else 0)

/-- COND_NO (R190). -/
def execCondNo (addr : MicroAddr) (s : State) : Result := .next (s.goTo addr)

/-- COND_JAMN (R191). -/
def execCondJamn (addr : MicroAddr) (s : State) : Result := .next (s.goTo (jamTarget addr s.n))

/-- COND_JAMZ (R192). -/
def execCondJamz (addr : MicroAddr) (s : State) : Result := .next (s.goTo (jamTarget addr s.z))

/-- COND_DECODE (R193, R212): dispatch on the key of IR; an unmapped key is recorded and the fetch entry is next. -/
def execCondDecode (s : State) : Result :=
  let ir := s.readReg Slot.ir
  match s.cfg.mapped (opkey ir) with
  | some a => .next (s.goTo a)
  | none => .next ((s.raise (.unmappedOpcode ir (opkey ir))).goTo 0)

end Sys2Proof.Machine
end

