-- ==== Sys2Proof/Machine/Shifter.lean ====
section
/-! DEFINITION. The rows SH_* (spec/40_alu_shifter.md R126 to R129): the shift stage works on the ALU stage's output and the flags
come from its own (R120, R130). And the whole-word row NOP_ALL_ZERO (spec/30_encoding.md R86). -/

namespace Sys2Proof.Machine

/-- R126. -/
def shNone (w : Word) : Word := w

/-- R127: bits 14:0 are w[15:1], and bit 15 is the sign bit before the shift. -/
def shSra1 (w : Word) : Word := (w >>> 1) ||| (w &&& 0x8000)

/-- R128. -/
def shSll8 (w : Word) : Word := w <<< 8

/-- `refuse ReservedShift` (R39, R129): the mark, and nothing else. -/
def State.refuse (s : State) (r : RefusalReason) : State := { s with refused := some r }

/-- SH_NONE (R126). -/
def execShNone (s : State) : Result := .next (s.finishAlu (shNone s.aluResult))

/-- SH_SRA1 (R127). -/
def execShSra1 (s : State) : Result := .next (s.finishAlu (shSra1 s.aluResult))

/-- SH_SLL8 (R128). -/
def execShSll8 (s : State) : Result := .next (s.finishAlu (shSll8 s.aluResult))

/-- SH_RESERVED3 (R129): the refusal mark; in a machine that accepts SH = 3, the parameter SHIFT3 (decision D11, log 11). -/
def execShReserved3 (s : State) : Result :=
  .next (if s.cfg.acceptShift3 then s.finishAlu (Config.shift3 s.aluResult) else s.refuse .reservedShift)

/-- NOP_ALL_ZERO (R86): the all-zero word's own microcycle after its fetch. Both latches are slot 0, the result is their
sum unshifted with its flags, no enable is set, and MPC := 0. -/
def execNopAllZero (s : State) : Result :=
  let t := s.decodeRead {}
  let u := t.finishAlu (shNone (aluAdd t.latchA t.latchB))
  .next { u with mpc := 0 }

end Sys2Proof.Machine
end

