-- ==== Sys2Proof/Machine/Writeback.lean ====
section
/-! DEFINITION. The enable rows MARW, MBRW, ENC, RD and WR: steps 1 to 5 of WRITEBACK_NEXT (spec/42_writeback_memory.md R170 to
R174). -/

namespace Sys2Proof.Machine

/-- MARW (R170). -/
def execMarw (s : State) : Result := .next (s.writeReg Slot.mar s.aluResult)

/-- MBRW (R171). -/
def execMbrw (s : State) : Result := .next (s.writeReg Slot.mbr s.aluResult)

/-- ENC (R172). -/
def execEnc (c : RegIdx) (s : State) : Result := .next (s.writeReg c s.aluResult)

/-- The address RD and WR use: the full 16-bit MAR, never masked (R173, R174). -/
def State.dataAddr (s : State) : Nat := (s.readReg Slot.mar).toNat

/-- RD (R173); the hit indicator is discarded. -/
def execRd (s : State) : Result :=
  let (d, _, t) := s.cacheRead s.dataAddr
  .next (t.writeReg Slot.mbr d)

/-- WR (R174); the hit indicator is discarded. -/
def execWr (s : State) : Result := .next (s.cacheWrite s.dataAddr (s.readReg Slot.mbr)).2

end Sys2Proof.Machine
end

