-- ==== Sys2Proof/Machine/Dispatch.lean ====
section
/-! DEFINITION. `exec`: the action of one row of spec/opcode_table.json, one arm per constructor of Instr (log 1). -/

namespace Sys2Proof.Machine

def exec (i : Instr) (s : State) : Host.Outcome State Fault Refusal :=
  match i with
  | .aluAdd => Sys2Proof.Machine.execAluAdd s
  | .aluAnd => Sys2Proof.Machine.execAluAnd s
  | .aluPass => Sys2Proof.Machine.execAluPass s
  | .aluNot => Sys2Proof.Machine.execAluNot s
  | .shNone => Sys2Proof.Machine.execShNone s
  | .shSra1 => Sys2Proof.Machine.execShSra1 s
  | .shSll8 => Sys2Proof.Machine.execShSll8 s
  | .shReserved3 => Sys2Proof.Machine.execShReserved3 s
  | .amuxA => Sys2Proof.Machine.execAmuxA s
  | .amuxMbr => Sys2Proof.Machine.execAmuxMbr s
  | .marw => Sys2Proof.Machine.execMarw s
  | .mbrw => Sys2Proof.Machine.execMbrw s
  | .enc c => Sys2Proof.Machine.execEnc c s
  | .rd => Sys2Proof.Machine.execRd s
  | .wr => Sys2Proof.Machine.execWr s
  | .condNo addr => Sys2Proof.Machine.execCondNo addr s
  | .condJamn addr => Sys2Proof.Machine.execCondJamn addr s
  | .condJamz addr => Sys2Proof.Machine.execCondJamz addr s
  | .condDecode => Sys2Proof.Machine.execCondDecode s
  | .nopAllZero => Sys2Proof.Machine.execNopAllZero s

end Sys2Proof.Machine
end

