-- ==== Sys2Proof/Machine/Phases.lean ====
section
/-! DEFINITION. One step of the engine: the four phases (spec/41_engine_cycle.md R141 to R146), each running the rows its
microinstruction holds for that phase. Step.lean calls `State.phaseStep` and `State.dueFor`. -/

namespace Sys2Proof.Machine

/-- Run rows one after another; each sees the effects of those before it (R12, R146). -/
def execAll : List Instr → State → Result
  | [], s => .next s
  | i :: rest, s => Result.andThen (exec i s) (execAll rest)

/-- ALU_EXEC (R144). A step that refuses changes nothing but the mark (R129, R39; log 12). -/
def State.aluExec (s : State) (f : Micro) : Result :=
  Result.andThen (execAll f.aluRows s) fun t => .next (if t.refused.isSome then { s with refused := t.refused } else t)

/-- WRITEBACK_NEXT (R146): the enable rows that are set, in the fixed order, then the next address. -/
def State.writebackNext (s : State) (f : Micro) : Result := execAll f.writebackRows s

/-- The phase the counter names (R141). -/
def State.runPhase (s : State) : Result :=
  match s.phase with
  | .fetchMicro => .next s.fetchMicro
  | .decodeRead => .next (s.decodeRead s.micro)
  | .aluExec => s.aluExec s.micro
  | .writebackNext => s.writebackNext s.micro

/-- One step (R140, R141): a refused state does not change; otherwise one phase runs and the counter moves on. -/
def State.phaseStep (s : State) : Result :=
  if s.refused.isSome then .next s
  else Result.andThen s.runPhase fun t => .next t.endStep

/-! ### The state in which a given word is due -/

/-- How many phases of its microcycle a word has behind it when the row it leads with acts: 0 for the whole-word row, 2 for
the rows of phase 3, 3 for those of phase 4 (log 22). -/
def Instr.phasesBefore : Instr → Nat
  | .nopAllZero => 0
  | .aluAdd | .aluAnd | .aluPass | .aluNot | .shNone | .shSra1 | .shSll8 | .shReserved3 | .amuxA | .amuxMbr => 2
  | .marw | .mbrw | .enc _ | .rd | .wr | .condNo _ | .condJamn _ | .condJamz _ | .condDecode => 3

/-- The state `k` steps on. -/
def State.afterSteps : Nat → State → State
  | 0, s => s
  | k + 1, s =>
    match s.phaseStep with
    | .next t => State.afterSteps k t
    | .fault _ => s
    | .refused _ => s

/-- The word stored in the control-store slot that MPC names, at the start of its microcycle and not refused. -/
def State.placeWord (s : State) (w : Nat) : State :=
  { s with
    cfg := { s.cfg with controlStore := tableInsert s.cfg.controlStore s.mpc.toNat (maskTo 33 w) }
    phase := .fetchMicro
    refused := none }

/-- The word placed, and the phases of its microcycle run that come before the row it leads with, so that the next step
is the one that runs that row. -/
def State.dueFor (s : State) (w : Nat) : State :=
  State.afterSteps (Instr.phasesBefore (decode w).leadingRow) (s.placeWord w)

end Sys2Proof.Machine
end

