-- ==== Sys2Proof/Machine/Step.lean ====
section
/-! DEFINITION. The machine's step: one call of the engine's one operation, which runs one phase (spec/41_engine_cycle.md R140),
and the placing of a word where the next step runs it. -/

namespace Sys2Proof.Machine

/-- R140, R141. -/
def step (s : State) : Host.Outcome State Fault Refusal := s.phaseStep

/-- `s` with the word of `nbits` bits in the control-store slot that MPC names, at the phase in which the row it leads with
acts, the earlier phases of that microcycle having run (logs 4, 22). -/
def State.withFetchWord (s : State) (nbits w : Nat) : State := s.dueFor (maskTo nbits w)

end Sys2Proof.Machine
end

