-- ==== Sys2Proof/WellFormed.lean ====
section
/-! DEFINITION. Well-formedness: field widths of a microinstruction (spec/30_encoding.md R80), the parameters (R89, R91 and
decision D29), and a memory image (decision D17). Each is decidable. -/

namespace Sys2Proof

/-- Every field is within its declared width (R80). -/
abbrev Micro.WellFormed (f : Micro) : Prop :=
  f.amux < 2 ∧ f.cond < 4 ∧ f.alu < 4 ∧ f.sh < 4 ∧ f.mbr < 2 ∧ f.mar < 2 ∧ f.rd < 2 ∧ f.wr < 2 ∧ f.enc < 2 ∧
    f.c < 16 ∧ f.b < 16 ∧ f.a < 16 ∧ f.addr < 512

/-- The keys of a table rise strictly: a partial map, in one form. -/
abbrev KeysRise (t : List (Nat × Nat)) : Prop := t.Pairwise fun p q => p.1 < q.1

/-- A control store is well formed when every populated slot is one of the 512 and holds a natural below 2^33 (R34, R89). -/
abbrev ControlStoreWellFormed (t : List (Nat × Nat)) : Prop := KeysRise t ∧ ∀ p ∈ t, p.1 < 512 ∧ p.2 < 2 ^ 33

/-- An opcode map is well formed when every mapped target is in 0..511 (R91). A key that no IR gives has no effect. -/
abbrev OpcodeMapWellFormed (t : List (Nat × Nat)) : Prop := KeysRise t ∧ ∀ p ∈ t, p.2 < 512

/-- The ranges of the sizes (D29) and the form of the two tables. -/
abbrev Config.WellFormed (cfg : Config) : Prop :=
  (1 ≤ cfg.memorySize ∧ cfg.memorySize ≤ 65536) ∧ 1 ≤ cfg.blockSize ∧ 1 ≤ cfg.cacheSize ∧
    ControlStoreWellFormed cfg.controlStore ∧ OpcodeMapWellFormed cfg.opcodeMap

/-- A memory image is a list of words, each in 0..0xFFFF (D17). -/
abbrev ImageWellFormed (img : List Nat) : Prop := ∀ w ∈ img, w < 2 ^ 16

end Sys2Proof
end

