-- ==== Sys2Proof/Machine/HostInterface.lean ====
section
/-! DEFINITION. The host's side of the interface (spec/70_reset_and_hazards.md R231, R234): construct and preload, and the read
accessors (spec/41_engine_cycle.md R149), which change nothing (R150). -/

namespace Sys2Proof.Machine

/-- The preload of R231: `for j in 0..L-1: MemWrite(j, 1, img[j])`, from address `j` on. -/
def State.preloadFrom : Nat → List Word → State → State
  | _, [], s => s
  | j, w :: img, s => State.preloadFrom (j + 1) img (s.memWrite j w)

/-- The host's preload (R231, R234): a list of words, written from address 0. -/
def State.preload (s : State) (img : List Word) : State := State.preloadFrom 0 img s

/-- Construct and preload (R231, R234). Ill-formed parameters and an image word outside 16 bits are refused (R89, R91;
decisions D17, D29, log 18). -/
def construct (cfg : Config) (img : List Nat) : Option State :=
  if cfg.WellFormed ∧ ImageWellFormed img then some ((State.initial cfg).preload (img.map (BitVec.ofNat 16))) else none

/-- `signed16(v)` (spec/00_scope.md R10). -/
def signed16 (v : Word) : Int := if v.getLsbD 15 then (v.toNat : Int) - 0x10000 else v.toNat

/-- `reg(i)`. -/
def State.accessReg (s : State) (i : RegIdx) : Word := s.readReg i

/-- `regSigned(i)` (spec/10_state.md R26). -/
def State.accessRegSigned (s : State) (i : RegIdx) : Int := signed16 (s.readReg i)

/-- `memWord(a)`, past the cache and without touching it (decision D18, log 19). -/
def State.accessMemWord (s : State) (a : Nat) : Word := s.memRead a

/-- `mpc()`. -/
def State.accessMpc (s : State) : MicroAddr := s.mpc

/-- `subcycle()`: the phase the next step runs, 1 to 4. -/
def State.accessSubcycle (s : State) : Nat := s.phase.toNat

/-- `flags()` = (N, Z). -/
def State.accessFlags (s : State) : Bool × Bool := (s.n, s.z)

/-- `cacheLine(i)`, for i in 0..CACHE_SIZE-1. -/
def State.accessCacheLine (s : State) (i : Nat) : Option CacheLine := s.lines[i]?

/-- `faultLog()`. -/
def State.accessFaultLog (s : State) : List FaultEvent := s.faults

end Sys2Proof.Machine
end

