-- ==== Sys2Proof/Safety.lean ====
section
/-! DEFINITION. What claims about this machine rest on: the invariant of well-formed states, with the cache coherence of
spec/20_memory.md R65, and what counts as a run the spec gives a meaning to (spec/10_state.md R39). -/

namespace Sys2Proof.Machine

/-- The outcome of `k` steps (spec/70_reset_and_hazards.md R235), as the host's `Host.Core.run` gives it. -/
def run : Nat → State → Result
  | 0, s => .next s
  | k + 1, s => Result.andThen (step s) (run k)

/-- R65: a valid line's data are the memory words it covers. -/
abbrev State.Coherent (s : State) : Prop :=
  ∀ i < s.lines.length, (s.line i).valid = true → ∀ o < s.cfg.blockSize,
    (s.line i).word o = s.memRead (((s.line i).tag * s.cfg.cacheSize + i) * s.cfg.blockSize + o)

/-- Memory is in its canonical form and holds only backed words (R36). -/
abbrev State.MemoryWellFormed (s : State) : Prop := Memory.wf s.mem ∧ ∀ p ∈ s.mem, p.1 < s.cfg.memorySize

/-- The cache holds CACHE_SIZE lines of BLOCK_SIZE words (R37). -/
abbrev State.CacheWellFormed (s : State) : Prop :=
  s.lines.length = s.cfg.cacheSize ∧ ∀ l ∈ s.lines, l.data.length = s.cfg.blockSize

/-- A refusal mark is only ever set by ALU_EXEC, which then does not move on (R129, R141). -/
abbrev State.RefusedAtAlu (s : State) : Prop := s.refused ≠ none → s.phase = .aluExec

/-- The invariant: every step keeps it, from every state that has it. -/
abbrev State.Inv (s : State) : Prop :=
  s.cfg.WellFormed ∧ s.MemoryWellFormed ∧ s.CacheWellFormed ∧ s.Coherent ∧ s.RefusedAtAlu

/-- The state carries no refusal mark: "Refused" means `refused ≠ none` (R39). -/
abbrev State.NotRefused (s : State) : Prop := s.refused = none

/-- "No fault recorded" (spec/92_eei_decisions.md D12). -/
abbrev State.NoFaultRecorded (s : State) : Prop := s.faults = []

/-- A state that stepping cannot refuse in this phase: no mark, and either the machine accepts SH = 3 or MIR does not hold
it (R129). -/
abbrev State.Meaningful (s : State) : Prop := s.NotRefused ∧ (s.cfg.acceptShift3 = true ∨ s.micro.sh ≠ 3)

end Sys2Proof.Machine
end

