-- ==== Sys2Proof/Certificates/Slice0/Obligations.lean ====
section
/-! DEFINITION. The statements about the MIC-1 block, for the provers. A statement's docstring says which sentences of spec/ it
formalises. Values are said in natural-number arithmetic (spec/00_scope.md R9), not through the model's own functions,
wherever the spec gives a formula. Bit positions are those of the rules' own Encoding lines; they, the register indices and the
shape of a fault event are decisions of the spec (D3, D1, D12; logs 10, 9, 16). -/

namespace Sys2Proof.Oracle

/-- The ALU stage as the spec's formulas on naturals (spec/40_alu_shifter.md R122 to R125). -/
def alu (op a b : Nat) : Nat :=
  if op = 0 then (a + b) % 0x10000 else if op = 1 then Nat.land a b else if op = 2 then a else 0xFFFF - a

/-- The defined shifts as formulas on naturals (R126 to R128). -/
def shift (op w : Nat) : Nat :=
  if op = 0 then w else if op = 1 then w / 2 + w / 0x8000 * 0x8000 else w * 0x100 % 0x10000

/-- Slots that store what is written to them (spec/10_state.md R25): not 0, not 8..12. -/
def writable (i : RegIdx) : Prop := (1 ≤ i.toNat ∧ i.toNat ≤ 7) ∨ 13 ≤ i.toNat

/-- The A input of phase 3 (spec/41_engine_cycle.md R145). -/
def inputA (amux : Nat) (r : Machine.Regs) (latched : Word) : Word := if amux = 1 then r.mbr else latched

end Sys2Proof.Oracle

open Sys2Proof Sys2Proof.Machine

/-! ### Encoding -/

/-- 30_encoding.md section 1, the codec laws: decode inverts encode on fields within their widths, cuts them otherwise, and
encode inverts decode up to bit 33. The bit layout is decision D3 (log 10). -/
def Obligations.CodecRoundTrip : Prop :=
  (∀ f : Micro, f.WellFormed → decode (encode f) = f) ∧
  (∀ f : Micro, decode (encode f) = f.masked) ∧
  (∀ w : Nat, encode (decode w) = w % 2 ^ 33) ∧
  (∀ w : Nat, decode w = decode (w % 2 ^ 33))

/-- 30_encoding.md, introduction: "Every executed word matches exactly one row from each of the groups ALU_*, SH_*, AMUX_* and
COND_*", by the table's masks and patterns, and those are the rows the decoder gives. -/
def Obligations.EveryWordHasOneRowPerGroup : Prop :=
  ∀ w : Nat,
    (∃! i : Instr, i.mask = 0x030000000 ∧ i.matchesWord w = true) ∧
    (∃! i : Instr, i.mask = 0x00C000000 ∧ i.matchesWord w = true) ∧
    (∃! i : Instr, i.mask = 0x100000000 ∧ i.matchesWord w = true) ∧
    (∃! i : Instr, i.mask = 0x0C0000000 ∧ i.matchesWord w = true) ∧
    (∀ i : Instr, i ∈ (decode w).rows ↔ i.matchesWord w = true)

/-- 30_encoding.md section 1: the rows a microinstruction holds, with the fields no row reads, give back every field. -/
def Obligations.RowsKeepEveryField : Prop :=
  ∀ f g : Micro, f.WellFormed → g.WellFormed → f.rows = g.rows → f.a = g.a → f.b = g.b →
    (f.enc = 0 → f.c = g.c) → (f.cond = 3 → f.addr = g.addr) → f = g

/-- Words of 95_test_vectors.md sections 1, 2.2 and 2.5 decode to the microinstructions they are listed for. -/
def Obligations.ListedWordsDecode : Prop :=
  decode 0x021800201 = { a := 1, alu := 2, mar := 1, rd := 1, addr := 1 } ∧
  decode 0x1003B2805 = { amux := 1, a := 4, b := 9, enc := 1, c := 13, addr := 5 } ∧
  decode 0x1E7FF6DA5 = { amux := 1, cond := 3, alu := 2, sh := 1, mbr := 1, mar := 1, rd := 1, wr := 1, enc := 1,
                         c := 15, b := 11, a := 6, addr := 0x1A5 } ∧
  decode (2 ^ 33 + 5) = { addr := 5 } ∧
  decode 0x0A4001240 = { cond := 2, alu := 2, sh := 1, a := 9, addr := 0x040 }

/-- R90: the dispatch key of IR, and its two ranges, which do not overlap. -/
def Obligations.DispatchKeyOfIr : Prop :=
  ∀ ir : Word,
    (ir.toNat / 0x1000 = 0xF → opkey ir = ir.toNat / 0x100 ∧ 0xF0 ≤ opkey ir ∧ opkey ir ≤ 0xFF) ∧
    (ir.toNat / 0x1000 ≠ 0xF → opkey ir = ir.toNat / 0x1000 ∧ opkey ir ≤ 0xE)

/-! ### Register file -/

/-- 10_state.md section 2, the index layout (decision D1, log 9) and the read rule: slot 0 reads 0, the read-only slots their
constants, each other slot its register. -/
def Obligations.RegisterReadsByRole : Prop :=
  ∀ s : State,
    s.readReg 0 = 0 ∧ s.readReg 1 = s.regs.pc ∧ s.readReg 2 = s.regs.ir ∧ s.readReg 3 = s.regs.sp ∧
    s.readReg 4 = s.regs.ac ∧ s.readReg 5 = s.regs.mar ∧ s.readReg 6 = s.regs.mbr ∧ s.readReg 7 = s.regs.tir ∧
    s.readReg 8 = 0x0000 ∧ s.readReg 9 = 0x0001 ∧ s.readReg 10 = 0xFFFF ∧ s.readReg 11 = 0x0FFF ∧
    s.readReg 12 = 0x00FF ∧ s.readReg 13 = s.regs.scr0 ∧ s.readReg 14 = s.regs.scr1 ∧ s.readReg 15 = s.regs.scr2

/-- 10_state.md section 2: a write is seen by a read of the same writable slot and by no other read; slots 0 and 8..12 drop it
(slot 0: decision D2, log 9). -/
def Obligations.RegisterWriteThenRead : Prop :=
  ∀ (s : State) (i j : RegIdx) (v : Word),
    (Oracle.writable i → (s.writeReg i v).readReg i = v) ∧
    (j ≠ i → (s.writeReg i v).readReg j = s.readReg j) ∧
    (¬ Oracle.writable i → s.writeReg i v = s)

/-- 10_state.md section 2, which operations touch which slots, with 41_engine_cycle.md section 3: over one step a slot reads
otherwise only in phase 4, only where a set enable of the word names it (MAR for MAR; MBR or RD for MBR; ENC for slot C), never
if it is slot 0 or read-only, and its new word is aluResult unless it is MBR in a word with RD. The slot numbers are decision D1
(log 9). -/
def Obligations.OnlyNamedSlotsChange : Prop :=
  ∀ (s t : State) (i : RegIdx), step s = .next t → t.readReg i ≠ s.readReg i →
    s.refused = none ∧ s.phase = .writebackNext ∧ Oracle.writable i ∧
    ((i = 5 ∧ (decode s.mir.toNat).mar = 1) ∨
      (i = 6 ∧ ((decode s.mir.toNat).mbr = 1 ∨ (decode s.mir.toNat).rd = 1)) ∨
      ((decode s.mir.toNat).enc = 1 ∧ (decode s.mir.toNat).c = i.toNat)) ∧
    (t.readReg i = s.aluResult ∨ (i = 6 ∧ (decode s.mir.toNat).rd = 1))

/-! ### ALU and shifter rows -/

/-- 40_alu_shifter.md section 2: each ALU row's encoding in bits 29:28, its stage output on the latches, and nothing else changed
(the flags follow in the shift stage; no carry is kept). That the row leaves the output in aluResult, on its way to the SH row
of the same step, is the model's choice (log 2). -/
def Obligations.AluRowsComputeStage : Prop :=
  (∀ w : Nat,
    ((decode w).aluRow = .aluAdd ↔ w.testBit 29 = false ∧ w.testBit 28 = false) ∧
    ((decode w).aluRow = .aluAnd ↔ w.testBit 29 = false ∧ w.testBit 28 = true) ∧
    ((decode w).aluRow = .aluPass ↔ w.testBit 29 = true ∧ w.testBit 28 = false) ∧
    ((decode w).aluRow = .aluNot ↔ w.testBit 29 = true ∧ w.testBit 28 = true)) ∧
  ∀ s : State,
    (∃ t, exec .aluAdd s = .next t ∧ t = { s with aluResult := t.aluResult } ∧
      t.aluResult.toNat = (s.latchA.toNat + s.latchB.toNat) % 0x10000) ∧
    (∃ t, exec .aluAnd s = .next t ∧ t = { s with aluResult := t.aluResult } ∧
      t.aluResult.toNat = Nat.land s.latchA.toNat s.latchB.toNat) ∧
    (∃ t, exec .aluPass s = .next t ∧ t = { s with aluResult := t.aluResult } ∧
      t.aluResult.toNat = s.latchA.toNat) ∧
    (∃ t, exec .aluNot s = .next t ∧ t = { s with aluResult := t.aluResult } ∧
      t.aluResult.toNat = 0xFFFF - s.latchA.toNat)

/-- 40_alu_shifter.md sections 3 and 4: each defined shift row's encoding in bits 27:26, its result on the ALU stage's output,
both flags from that result, and nothing else changed. That the row finds the stage's output in aluResult is the model's choice
(log 2). -/
def Obligations.ShiftRowsComputeResult : Prop :=
  (∀ w : Nat,
    ((decode w).shRow = .shNone ↔ w.testBit 27 = false ∧ w.testBit 26 = false) ∧
    ((decode w).shRow = .shSra1 ↔ w.testBit 27 = false ∧ w.testBit 26 = true) ∧
    ((decode w).shRow = .shSll8 ↔ w.testBit 27 = true ∧ w.testBit 26 = false)) ∧
  ∀ s : State,
    (∃ t, exec .shNone s = .next t ∧ t = { s with aluResult := t.aluResult, n := t.n, z := t.z } ∧
      t.aluResult = s.aluResult ∧
      (t.z = true ↔ t.aluResult.toNat = 0) ∧ (t.n = true ↔ 0x8000 ≤ t.aluResult.toNat)) ∧
    (∃ t, exec .shSra1 s = .next t ∧ t = { s with aluResult := t.aluResult, n := t.n, z := t.z } ∧
      t.aluResult.toNat = s.aluResult.toNat / 2 + (if 0x8000 ≤ s.aluResult.toNat then 0x8000 else 0) ∧
      (t.z = true ↔ t.aluResult.toNat = 0) ∧ (t.n = true ↔ 0x8000 ≤ t.aluResult.toNat)) ∧
    (∃ t, exec .shSll8 s = .next t ∧ t = { s with aluResult := t.aluResult, n := t.n, z := t.z } ∧
      t.aluResult.toNat = s.aluResult.toNat * 0x100 % 0x10000 ∧
      (t.z = true ↔ t.aluResult.toNat = 0) ∧ (t.n = true ↔ 0x8000 ≤ t.aluResult.toNat))

/-- 40_alu_shifter.md section 3, SH = 3 (decision D11, log 11): the refusal mark and nothing else; in a machine that accepts
SH = 3, the result is the open function SHIFT3 of the stage output (in aluResult, log 2), with its flags, whatever that function
is. -/
def Obligations.ReservedShiftRow : Prop :=
  (∀ w : Nat, (decode w).shRow = .shReserved3 ↔ w.testBit 27 = true ∧ w.testBit 26 = true) ∧
  (∀ s : State, s.cfg.acceptShift3 = false →
    exec .shReserved3 s = .next { s with refused := some .reservedShift }) ∧
  (∀ s : State, s.cfg.acceptShift3 = true →
    ∃ t, exec .shReserved3 s = .next t ∧ t = { s with aluResult := t.aluResult, n := t.n, z := t.z } ∧
      t.aluResult = Config.shift3 s.aluResult ∧
      (t.z = true ↔ t.aluResult.toNat = 0) ∧ (t.n = true ↔ 0x8000 ≤ t.aluResult.toNat))

/-- 40_alu_shifter.md section 3 and 10_state.md section 7 (decision D11, log 11): the step that reaches SH = 3 changes no state
except the mark, with AMUX = 1 too (log 12), and a refused state then steps to itself. -/
def Obligations.ReservedShiftStepRefuses : Prop :=
  ∀ s : State, s.refused = none → s.phase = .aluExec → s.cfg.acceptShift3 = false →
    s.mir.getLsbD 27 = true → s.mir.getLsbD 26 = true →
    step s = .next { s with refused := some .reservedShift } ∧
    step { s with refused := some .reservedShift } = .next { s with refused := some .reservedShift }

/-- R145: AMUX's encoding in bit 32; AMUX = 0 leaves the A input as latched, AMUX = 1 makes it x[MBR]. -/
def Obligations.AmuxRowsSelectInput : Prop :=
  (∀ w : Nat, ((decode w).amuxRow = .amuxA ↔ w.testBit 32 = false) ∧
    ((decode w).amuxRow = .amuxMbr ↔ w.testBit 32 = true)) ∧
  ∀ s : State, exec .amuxA s = .next s ∧ exec .amuxMbr s = .next { s with latchA := s.regs.mbr }

/-! ### Fetch, operand read, ALU_EXEC -/

/-- R142: phase 1 latches the word at MPC; an empty slot gives the all-zero word and the recorded fault. Nothing else is
written but the counter. -/
def Obligations.FetchLatchesWord : Prop :=
  ∀ s : State, s.refused = none → s.phase = .fetchMicro →
    (∀ w, s.cfg.controlSlot s.mpc = some w → step s = .next { s with mir := w, phase := .decodeRead }) ∧
    (s.cfg.controlSlot s.mpc = none →
      step s = .next { s with mir := 0, phase := .decodeRead,
                              faults := s.faults ++ [.unpopulatedControlStore s.mpc] })

/-- R143: phase 2 latches the registers that fields A and B name and writes nothing else but the counter. -/
def Obligations.DecodeReadLatches : Prop :=
  ∀ s : State, s.refused = none → s.phase = .decodeRead →
    step s = .next { s with
      latchA := s.readReg (BitVec.ofNat 4 (decode s.mir.toNat).a)
      latchB := s.readReg (BitVec.ofNat 4 (decode s.mir.toNat).b)
      phase := .aluExec }

/-- 41_engine_cycle.md section 2 with 40_alu_shifter.md section 1: phase 3 of a word without SH = 3 computes the ALU and shift
formulas on the selected inputs, keeps the result and its flags, and changes nothing else but the counter. -/
def Obligations.AluExecComputesFormula : Prop :=
  ∀ s : State, s.refused = none → s.phase = .aluExec → (decode s.mir.toNat).sh ≠ 3 →
    ∃ t, step s = .next t ∧
      t = { s with latchA := t.latchA, aluResult := t.aluResult, n := t.n, z := t.z, phase := .writebackNext } ∧
      t.latchA = Oracle.inputA (decode s.mir.toNat).amux s.regs s.latchA ∧
      t.aluResult.toNat = Oracle.shift (decode s.mir.toNat).sh
        (Oracle.alu (decode s.mir.toNat).alu t.latchA.toNat s.latchB.toNat) ∧
      (t.z = true ↔ t.aluResult.toNat = 0) ∧ (t.n = true ↔ 0x8000 ≤ t.aluResult.toNat)

/-- R130: phase 3 of every microinstruction writes both flags from the final 16-bit result, whatever the ALU op and the shift,
and whatever the flags were. -/
def Obligations.FlagsFollowEveryResult : Prop :=
  ∀ s : State, s.refused = none → s.phase = .aluExec →
    (s.cfg.acceptShift3 = true ∨ (decode s.mir.toNat).sh ≠ 3) →
    ∃ t, step s = .next t ∧ (t.z = true ↔ t.aluResult.toNat = 0) ∧ (t.n = true ↔ t.aluResult.getLsbD 15 = true) ∧
      ∀ n z : Bool, step { s with n := n, z := z } = .next t

/-! ### A step runs the rows of the decoded word -/

/-- 41_engine_cycle.md sections 1 and 2 (log 1): phase 3 is the AMUX row, the ALU row and the SH row of the latched word, one
after another, then the counter; where the SH row refuses, the step keeps only the mark (log 12). -/
def Obligations.AluExecRunsDecodedRows : Prop :=
  ∀ s t u v : State, s.refused = none → s.phase = .aluExec →
    exec (decode s.mir.toNat).amuxRow s = .next t → exec (decode s.mir.toNat).aluRow t = .next u →
    exec (decode s.mir.toNat).shRow u = .next v →
    step s = .next (if v.refused = none then { v with phase := .writebackNext } else { s with refused := v.refused })

/-- R146: phase 4 runs the enable rows whose bits are set, in the order MAR, MBR, ENC, RD, WR, and then the COND row, each on
the state the one before it left; then the counter. -/
def Obligations.WritebackRunsRowsInOrder : Prop :=
  ∀ s s1 s2 s3 s4 s5 t : State, s.refused = none → s.phase = .writebackNext →
    (if s.mir.getLsbD 24 then exec .marw s else .next s) = .next s1 →
    (if s.mir.getLsbD 25 then exec .mbrw s1 else .next s1) = .next s2 →
    (if s.mir.getLsbD 21 then exec (.enc (s.mir.extractLsb' 17 4)) s2 else .next s2) = .next s3 →
    (if s.mir.getLsbD 23 then exec .rd s3 else .next s3) = .next s4 →
    (if s.mir.getLsbD 22 then exec .wr s4 else .next s4) = .next s5 →
    exec (decode s.mir.toNat).condRow s5 = .next t →
    step s = .next { t with phase := .fetchMicro }

/-! ### Write-back rows -/

/-- R170, R171: the two latch enables' bits, what they write, and nothing else changed. -/
def Obligations.LatchEnablesWrite : Prop :=
  (∀ w : Nat, (.marw ∈ (decode w).rows ↔ w.testBit 24 = true) ∧ (.mbrw ∈ (decode w).rows ↔ w.testBit 25 = true)) ∧
  ∀ s : State,
    exec .marw s = .next { s with regs := { s.regs with mar := s.aluResult } } ∧
    exec .mbrw s = .next { s with regs := { s.regs with mbr := s.aluResult } }

/-- R172: the C-bus write's bit and field; a writable slot gets aluResult, slot 0 and the read-only slots drop the write and
nothing is recorded; nothing else changes. -/
def Obligations.CBusWrite : Prop :=
  (∀ (w : Nat) (c : RegIdx), .enc c ∈ (decode w).rows ↔ w.testBit 21 = true ∧ w / 2 ^ 17 % 16 = c.toNat) ∧
  ∀ (s : State) (c : RegIdx),
    ∃ t, exec (.enc c) s = .next t ∧ t = { s with regs := t.regs } ∧
      (Oracle.writable c → t.readReg c = s.aluResult) ∧ (¬ Oracle.writable c → t = s) ∧
      ∀ j, j ≠ c → t.readReg j = s.readReg j

/-- R173: RD's bit; MBR gets the word CacheRead gives for the full 16-bit MAR, the cache is as CacheRead leaves it, an address
at or above MEMORY_SIZE gives 0, and no flag, no other register and no word of memory changes. -/
def Obligations.ReadRowLoadsMbr : Prop :=
  (∀ w : Nat, .rd ∈ (decode w).rows ↔ w.testBit 23 = true) ∧
  ∀ s : State,
    ∃ t, exec .rd s = .next t ∧
      t = { s with regs := { s.regs with mbr := (s.cacheRead s.regs.mar.toNat).1 },
                   lines := (s.cacheRead s.regs.mar.toNat).2.2.lines } ∧
      (∀ a, t.memRead a = s.memRead a) ∧
      (s.Inv → s.cfg.memorySize ≤ s.regs.mar.toNat → t.regs.mbr = 0)

/-- 20_memory.md section 5: in a coherent state RD loads exactly the memory word at MAR, whether it hits or misses. -/
def Obligations.ReadRowLoadsMemoryWord : Prop :=
  ∀ s : State, s.Inv →
    ∃ t, exec .rd s = .next t ∧ t = { s with regs := { s.regs with mbr := s.memRead s.regs.mar.toNat }, lines := t.lines }

/-- R174: WR's bit; memory at MAR gets MBR and every other word stays; an out-of-range address is ignored; the line changes
only on a write hit to a backed address, at the word's own offset; nothing else changes. The premise on memory's form is
needed only for a stored 0, which the canonical form leaves unlisted (log 8). -/
def Obligations.WriteRowStoresMbr : Prop :=
  (∀ w : Nat, .wr ∈ (decode w).rows ↔ w.testBit 22 = true) ∧
  ∀ s : State,
    ∃ t, exec .wr s = .next t ∧ t = { s with mem := t.mem, lines := t.lines } ∧
      (s.MemoryWellFormed → s.regs.mar.toNat < s.cfg.memorySize → t.memRead s.regs.mar.toNat = s.regs.mbr) ∧
      (∀ a, a ≠ s.regs.mar.toNat → t.memRead a = s.memRead a) ∧
      (s.cfg.memorySize ≤ s.regs.mar.toNat → t = s) ∧
      t.lines =
        (if s.cacheHit s.regs.mar.toNat = true ∧ s.regs.mar.toNat < s.cfg.memorySize then
          s.lines.set (s.cfg.indexOf s.regs.mar.toNat)
            { s.line (s.cfg.indexOf s.regs.mar.toNat) with
              data := (s.line (s.cfg.indexOf s.regs.mar.toNat)).data.set (s.cfg.offsetOf s.regs.mar.toNat) s.regs.mbr }
        else s.lines)

/-! ### Memory and cache -/

/-- 20_memory.md section 1: an out-of-range read gives 0, an out-of-range write does nothing, an in-range write is read back, and
no other word changes. That memory is a list in a canonical form, which a write keeps, is the model's choice (log 8). -/
def Obligations.MemoryReadAfterWrite : Prop :=
  (∀ (s : State) (a : Nat), s.cfg.memorySize ≤ a → s.memRead a = 0) ∧
  (∀ (s : State) (a : Nat) (v : Word), s.cfg.memorySize ≤ a → s.memWrite a v = s) ∧
  (∀ (s : State) (a : Nat) (v : Word), s.MemoryWellFormed → a < s.cfg.memorySize →
    (s.memWrite a v).memRead a = v ∧ (s.memWrite a v).MemoryWellFormed) ∧
  (∀ (s : State) (a b : Nat) (v : Word), b ≠ a → (s.memWrite a v).memRead b = s.memRead b)

/-- R53: BLOCK_SIZE consecutive words from `start`, zero past the end of memory. -/
def Obligations.BlockReadZeroPads : Prop :=
  ∀ (s : State) (start i : Nat),
    (s.getBlock start).length = s.cfg.blockSize ∧
    (i < s.cfg.blockSize → start + i < s.cfg.memorySize → (s.getBlock start)[i]? = some (s.mem.read (start + i))) ∧
    (i < s.cfg.blockSize → s.cfg.memorySize ≤ start + i → (s.getBlock start)[i]? = some 0)

/-- 20_memory.md section 3, the cache read: a hit returns the line's word and changes nothing; a miss installs the aligned block
under the address's tag, evicting the line at that index, and returns its word. The tag formula is decision D8 (log 13). -/
def Obligations.CacheReadHitOrRefill : Prop :=
  ∀ (s : State) (addr : Nat),
    let o := addr % s.cfg.blockSize
    let i := addr / s.cfg.blockSize % s.cfg.cacheSize
    let tag := addr / (s.cfg.blockSize * s.cfg.cacheSize)
    ((s.line i).valid = true ∧ (s.line i).tag = tag →
      s.cacheRead addr = ((s.line i).data.getD o 0, true, s)) ∧
    (¬ ((s.line i).valid = true ∧ (s.line i).tag = tag) →
      s.cacheRead addr = ((s.getBlock (addr - o)).getD o 0, false,
        { s with lines := s.lines.set i { valid := true, tag := tag, data := s.getBlock (addr - o) } }))

/-- R61: a write miss changes memory only, and a read after it misses and returns the value just written. -/
def Obligations.NoWriteAllocate : Prop :=
  ∀ (s : State) (addr : Nat) (v : Word), s.Inv → (s.cacheWrite addr v).1 = false →
    (s.cacheWrite addr v).2 = { s with mem := (s.cacheWrite addr v).2.mem } ∧
    (addr < s.cfg.memorySize →
      ((s.cacheWrite addr v).2.cacheRead addr).1 = v ∧ ((s.cacheWrite addr v).2.cacheRead addr).2.1 = false)

/-- 20_memory.md sections 3 and 5 (conflict C2, decision D9, log 14): a write at or above MEMORY_SIZE changes nothing at all, on
a hit too, and a later read of the address still gives 0. -/
def Obligations.OutOfRangeWriteIgnored : Prop :=
  ∀ (s : State) (addr : Nat) (v : Word), s.cfg.memorySize ≤ addr →
    (s.cacheWrite addr v).2 = s ∧ (s.Inv → ((s.cacheWrite addr v).2.cacheRead addr).1 = 0)

/-- 20_memory.md section 5, the consequence of coherence: CacheRead returns what MemRead returns, and changes no value that a
later cache read of any address returns. -/
def Obligations.CacheReadReturnsMemory : Prop :=
  ∀ (s : State) (a b : Nat), s.Inv →
    (s.cacheRead a).1 = s.memRead a ∧ ((s.cacheRead a).2.2.cacheRead b).1 = (s.cacheRead b).1

/-- 20_memory.md section 5: each read sees the latest write of a backed address, and 0 at or above MEMORY_SIZE. -/
def Obligations.CacheReadSeesLatestWrite : Prop :=
  ∀ (s : State) (a b : Nat) (v : Word), s.Inv →
    ((s.cacheWrite a v).2.cacheRead b).1 = (if b = a ∧ a < s.cfg.memorySize then v else s.memRead b) ∧
    (s.cfg.memorySize ≤ b → ((s.cacheWrite a v).2.cacheRead b).1 = 0)

/-! ### Next address -/

/-- R190: COND = 0's encoding, and MPC gets ADDR; no flag is read and nothing else changes. -/
def Obligations.CondNoGoesToAddr : Prop :=
  (∀ (w : Nat) (a : MicroAddr),
    (decode w).condRow = .condNo a ↔ w.testBit 31 = false ∧ w.testBit 30 = false ∧ w % 512 = a.toNat) ∧
  ∀ (s : State) (a : MicroAddr), exec (.condNo a) s = .next { s with mpc := a }

/-- R191, R192: the JAM rows' encodings; MPC gets ADDR, with bit 8 set when the tested flag is; ADDR[8] = 1 makes both outcomes
ADDR; nothing else changes. -/
def Obligations.JamBranchesOnFlag : Prop :=
  (∀ (w : Nat) (a : MicroAddr),
    ((decode w).condRow = .condJamn a ↔ w.testBit 31 = false ∧ w.testBit 30 = true ∧ w % 512 = a.toNat) ∧
    ((decode w).condRow = .condJamz a ↔ w.testBit 31 = true ∧ w.testBit 30 = false ∧ w % 512 = a.toNat)) ∧
  ∀ (s : State) (a : MicroAddr),
    (∃ t, exec (.condJamn a) s = .next t ∧ t = { s with mpc := t.mpc } ∧
      t.mpc.toNat = Nat.lor a.toNat (if s.n then 0x100 else 0) ∧ (a.getLsbD 8 = true → t.mpc = a)) ∧
    (∃ t, exec (.condJamz a) s = .next t ∧ t = { s with mpc := t.mpc } ∧
      t.mpc.toNat = Nat.lor a.toNat (if s.z then 0x100 else 0) ∧ (a.getLsbD 8 = true → t.mpc = a))

/-- R193: COND = 3's encoding, whatever ADDR; a mapped key gives MPC; an unmapped key is recorded with IR and gives MPC = 0;
no flag is read and nothing else changes. -/
def Obligations.DecodeDispatches : Prop :=
  (∀ w : Nat, (decode w).condRow = .condDecode ↔ w.testBit 31 = true ∧ w.testBit 30 = true) ∧
  ∀ s : State,
    (∀ a, s.cfg.mapped (opkey s.regs.ir) = some a → exec .condDecode s = .next { s with mpc := a }) ∧
    (s.cfg.mapped (opkey s.regs.ir) = none →
      exec .condDecode s =
        .next { s with mpc := 0, faults := s.faults ++ [.unmappedOpcode s.regs.ir (opkey s.regs.ir)] })

/-- 42_writeback_memory.md, the combinations: a C-bus write to IR in a word with COND = 3 and no fault: the dispatch uses the
new IR, which is aluResult. -/
def Obligations.DispatchSeesNewIr : Prop :=
  ∀ s : State, s.refused = none → s.phase = .writebackNext → (decode s.mir.toNat).enc = 1 →
    (decode s.mir.toNat).c = 2 → (decode s.mir.toNat).cond = 3 →
    ∃ t, step s = .next t ∧ t.regs.ir = s.aluResult ∧
      (∀ a, s.cfg.mapped (opkey s.aluResult) = some a → t.mpc = a ∧ t.faults = s.faults) ∧
      (s.cfg.mapped (opkey s.aluResult) = none →
        t.mpc = 0 ∧ t.faults = s.faults ++ [.unmappedOpcode s.aluResult (opkey s.aluResult)])

/-! ### Faults -/

/-- R211: at an empty slot the four steps of the microcycle record the fault, run the all-zero word, write no register, memory
or cache, set N = false and Z = true, and end at the fetch entry. -/
def Obligations.EmptySlotRecovers : Prop :=
  ∀ s : State, s.refused = none → s.phase = .fetchMicro → s.cfg.controlSlot s.mpc = none →
    run 4 s = .next { s with
      mir := 0, latchA := 0, latchB := 0, aluResult := 0, n := false, z := true, mpc := 0
      faults := s.faults ++ [.unpopulatedControlStore s.mpc] }

/-- R212: with COND = 3 and an unmapped key, what the enable rows did stays done, the fault is recorded with IR and the key, and
execution goes on at the fetch entry; no register changes but those the enables wrote. -/
def Obligations.UnmappedOpcodeRecovers : Prop :=
  ∀ s t : State, s.refused = none → s.phase = .writebackNext → (decode s.mir.toNat).cond = 3 →
    execAll (decode s.mir.toNat).enableRows s = .next t → s.cfg.mapped (opkey t.regs.ir) = none →
    step s = .next { t with
      mpc := 0, phase := .fetchMicro, faults := s.faults ++ [.unmappedOpcode t.regs.ir (opkey t.regs.ir)] }

/-- 60_exceptions.md section 2 (priority): over the four steps of a microcycle the log grows by at most one event. -/
def Obligations.AtMostOneFaultPerMicrocycle : Prop :=
  ∀ s t : State, s.phase = .fetchMicro → run 4 s = .next t →
    ∃ e, t.faults = s.faults ++ e ∧ e.length ≤ 1

/-- 10_state.md section 7: only phases 1 and 4 record, one event at most, and nothing removes an entry. -/
def Obligations.FaultLogOnlyGrows : Prop :=
  ∀ s t : State, step s = .next t →
    ∃ e, t.faults = s.faults ++ e ∧ e.length ≤ 1 ∧ (e ≠ [] → s.phase = .fetchMicro ∨ s.phase = .writebackNext)

/-- 60_exceptions.md section 2 (fault return and nesting): an empty address 0 raises the fault at every microcycle, forever, with
MPC staying 0; each is recorded, and no register, memory word or line ever changes. -/
def Obligations.EmptyFetchEntryLoops : Prop :=
  ∀ (s : State) (k : Nat), s.refused = none → s.phase = .fetchMicro → s.mpc = 0 → s.cfg.controlSlot 0 = none →
    ∃ t, run (4 * k) s = .next t ∧ t.mpc = 0 ∧ t.phase = .fetchMicro ∧
      t.faults = s.faults ++ List.replicate k (.unpopulatedControlStore 0) ∧
      t.regs = s.regs ∧ t.mem = s.mem ∧ t.lines = s.lines

/-- 30_encoding.md section 1: the all-zero word's row gives both latches 0, result 0, N = false, Z = true, MPC = 0 and writes no
register, memory or line; and the four steps of a microcycle whose slot holds 0 are the fetch and then that row. -/
def Obligations.AllZeroWordMicrocycle : Prop :=
  (∀ s : State, exec .nopAllZero s =
    .next { s with latchA := 0, latchB := 0, aluResult := 0, n := false, z := true, mpc := 0 }) ∧
  (∀ w : Nat, .nopAllZero ∈ (decode w).rows ↔ w % 2 ^ 33 = 0) ∧
  ∀ s : State, s.refused = none → s.phase = .fetchMicro → s.cfg.controlSlot s.mpc = some 0 →
    run 4 s = exec .nopAllZero { s with mir := 0 }

/-! ### The whole machine -/

/-- 41_engine_cycle.md section 4: the engine never stops by itself, from any state, and the only states that a step does not
change are the refused ones (10_state.md section 7, decision D11, log 11). -/
def Obligations.EngineNeverStops : Prop :=
  (∀ s : State, ∃ t, step s = .next t) ∧ ∀ s : State, step s = .next s ↔ s.refused ≠ none

/-- 41_engine_cycle.md section 1: the counter runs 1, 2, 3, 4, 1, … as `(phase mod 4) + 1`; a refused state does not move. -/
def Obligations.PhaseCounterCycles : Prop :=
  ∀ s t : State, step s = .next t →
    (t.refused = none → t.phase.toNat = s.phase.toNat % 4 + 1) ∧ (t.refused ≠ none → t.phase = s.phase)

/-- 41_engine_cycle.md section 4, the microcycle summary: the four steps from phase 1 compute on the registers as they were
before the microcycle, with the flags and latches of that word, and then run the word's phase 4 rows. -/
def Obligations.MicrocycleSummary : Prop :=
  ∀ (s : State) (w : MicroWord), s.refused = none → s.phase = .fetchMicro → s.cfg.controlSlot s.mpc = some w →
    (decode w.toNat).sh ≠ 3 →
    ∃ (u v : State),
      u = { s with mir := w, latchA := u.latchA, latchB := u.latchB, aluResult := u.aluResult, n := u.n, z := u.z } ∧
      u.latchA = Oracle.inputA (decode w.toNat).amux s.regs (s.readReg (BitVec.ofNat 4 (decode w.toNat).a)) ∧
      u.latchB = s.readReg (BitVec.ofNat 4 (decode w.toNat).b) ∧
      u.aluResult.toNat = Oracle.shift (decode w.toNat).sh
        (Oracle.alu (decode w.toNat).alu u.latchA.toNat u.latchB.toNat) ∧
      (u.z = true ↔ u.aluResult.toNat = 0) ∧ (u.n = true ↔ 0x8000 ≤ u.aluResult.toNat) ∧
      execAll (decode w.toNat).writebackRows u = .next v ∧ run 4 s = .next v

/-- 10_state.md sections 3 to 8 with 41_engine_cycle.md sections 2 and 3: what each phase may write, and that the parameters
never change. -/
def Obligations.EachPhaseWritesItsOwn : Prop :=
  ∀ s t : State, step s = .next t →
    (s.phase = .fetchMicro → t = { s with mir := t.mir, faults := t.faults, phase := t.phase }) ∧
    (s.phase = .decodeRead → t = { s with latchA := t.latchA, latchB := t.latchB, phase := t.phase }) ∧
    (s.phase = .aluExec →
      t = { s with latchA := t.latchA, aluResult := t.aluResult, n := t.n, z := t.z, refused := t.refused,
                   phase := t.phase }) ∧
    (s.phase = .writebackNext →
      t = { s with regs := t.regs, mem := t.mem, lines := t.lines, mpc := t.mpc, faults := t.faults, phase := t.phase })

/-- 42_writeback_memory.md, the combinations: a word with no enable set changes no register, memory word or line. -/
def Obligations.NoEnableNoDataChange : Prop :=
  ∀ s t : State, s.refused = none → s.phase = .writebackNext →
    (decode s.mir.toNat).mar = 0 → (decode s.mir.toNat).mbr = 0 → (decode s.mir.toNat).enc = 0 →
    (decode s.mir.toNat).rd = 0 → (decode s.mir.toNat).wr = 0 → step s = .next t →
    t = { s with mpc := t.mpc, faults := t.faults, phase := .fetchMicro }

/-- 42_writeback_memory.md, the combinations, and 20_memory.md section 5: RD and WR in one word write back the word just read, so
every memory word keeps its value and MBR ends as the word at MAR. -/
def Obligations.ReadThenWriteKeepsMemory : Prop :=
  ∀ s : State, s.Inv → s.refused = none → s.phase = .writebackNext →
    (decode s.mir.toNat).rd = 1 → (decode s.mir.toNat).wr = 1 →
    ∃ t, step s = .next t ∧ (∀ a, t.memRead a = s.memRead a) ∧ t.regs.mbr = s.memRead t.regs.mar.toNat

/-- 70_reset_and_hazards.md section 3: flags are not kept across microinstructions. Two states that differ in N and Z alone at
phase 1 are the same after the microcycle. -/
def Obligations.FlagsNeverCarryOver : Prop :=
  ∀ (s : State) (n z : Bool), s.refused = none → s.phase = .fetchMicro →
    (s.cfg.acceptShift3 = true ∨ ∀ w, s.cfg.controlSlot s.mpc = some w → (decode w.toNat).sh ≠ 3) →
    run 4 { s with n := n, z := z } = run 4 s

/-- 20_memory.md section 5 with 10_state.md section 6: values never expose the cache. Two states that meet the invariant and
differ in their cache lines alone differ in their cache lines alone after any number of steps. -/
def Obligations.CacheIsInvisible : Prop :=
  ∀ (k : Nat) (s t : State) (ls : List CacheLine), s.Inv → State.Inv { s with lines := ls } →
    run k s = .next t →
    ∃ ls', run k { s with lines := ls } = .next { t with lines := ls' }

/-- 20_memory.md section 5, the coherence invariant, with the forms of memory, cache and parameters: every step keeps it, from
every state that has it. -/
def Obligations.StepKeepsInvariant : Prop :=
  ∀ s t : State, s.Inv → step s = .next t → t.Inv

/-! ### Reset and host -/

/-- The reset state meets the invariant. -/
def Obligations.ResetMeetsInvariant : Prop := State.reset.Inv

/-- 70_reset_and_hazards.md section 1 and decisions D17, D29 (log 18): construction succeeds exactly for parameters in range,
well-formed tables and an image of 16-bit words, and every state it gives meets the invariant, at phase 1 of MPC = 0. -/
def Obligations.ConstructionMeetsInvariant : Prop :=
  ∀ (cfg : Config) (img : List Nat),
    ((construct cfg img).isSome ↔
      (1 ≤ cfg.memorySize ∧ cfg.memorySize ≤ 65536) ∧ 1 ≤ cfg.blockSize ∧ 1 ≤ cfg.cacheSize ∧
      ControlStoreWellFormed cfg.controlStore ∧ OpcodeMapWellFormed cfg.opcodeMap ∧ ∀ w ∈ img, w < 65536) ∧
    ∀ s, construct cfg img = some s → s.Inv ∧ s.cfg = cfg ∧ s.mpc = 0 ∧ s.phase = .fetchMicro ∧ s.refused = none

/-- 70_reset_and_hazards.md section 1 (with 10_state.md section 6): every memory word resets to 0, and then the host preloads the
image from address 0; words past MEMORY_SIZE are dropped (decision D17, log 18). The preload changes nothing but memory. -/
def Obligations.PreloadedImageIsMemory : Prop :=
  ∀ (cfg : Config) (img : List Word) (a : Nat),
    (State.initial cfg).memRead a = 0 ∧
    ((State.initial cfg).preload img).memRead a = (if a < cfg.memorySize then img.getD a 0 else 0) ∧
    (State.initial cfg).preload img = { State.initial cfg with mem := ((State.initial cfg).preload img).mem }

/-- 70_reset_and_hazards.md section 1, the state construction sets, for any parameters (decisions D12 to D16, logs 5 to 7, 11, 16
and 17): registers, MPC, MIR, latches and flags 0, phase 1, every line invalid with tag 0 and data 0, the log empty, no
mark. -/
def Obligations.ConstructionState : Prop :=
  ∀ (cfg : Config) (i : RegIdx) (k o : Nat),
    (Oracle.writable i → (State.initial cfg).readReg i = 0) ∧
    (State.initial cfg).mpc = 0 ∧ (State.initial cfg).mir = 0 ∧ (State.initial cfg).accessSubcycle = 1 ∧
    (State.initial cfg).accessFlags = (false, false) ∧ (State.initial cfg).latchA = 0 ∧
    (State.initial cfg).latchB = 0 ∧ (State.initial cfg).aluResult = 0 ∧
    (State.initial cfg).faults = [] ∧ (State.initial cfg).refused = none ∧
    (State.initial cfg).lines.length = cfg.cacheSize ∧
    (k < cfg.cacheSize → ((State.initial cfg).line k).valid = false ∧ ((State.initial cfg).line k).tag = 0 ∧
      ((State.initial cfg).line k).data.length = cfg.blockSize ∧ ((State.initial cfg).line k).word o = 0)

/-- R26: the signed read of a register reinterprets bit 15 as the sign. -/
def Obligations.SignedReadReinterpretsBit15 : Prop :=
  ∀ (s : State) (i : RegIdx),
    (s.readReg i).toNat < 0x8000 ∧ s.accessRegSigned i = (s.readReg i).toNat ∨
    0x8000 ≤ (s.readReg i).toNat ∧ s.accessRegSigned i = ((s.readReg i).toNat : Int) - 0x10000
end

