-- ==== Sys2Proof/Laws/State.lean ====
section
/-! SUPPORT. One lemma per field per update of State: what each named update leaves in each field. -/

namespace Sys2Proof.Machine.State

/-! ### writeReg -/

@[simp] theorem writeReg_cfg (s : State) (i : RegIdx) (v : Word) : (s.writeReg i v).cfg = s.cfg := rfl

@[simp] theorem writeReg_regs (s : State) (i : RegIdx) (v : Word) : (s.writeReg i v).regs = s.regs.write i v := rfl

@[simp] theorem writeReg_mem (s : State) (i : RegIdx) (v : Word) : (s.writeReg i v).mem = s.mem := rfl

@[simp] theorem writeReg_lines (s : State) (i : RegIdx) (v : Word) : (s.writeReg i v).lines = s.lines := rfl

@[simp] theorem writeReg_mpc (s : State) (i : RegIdx) (v : Word) : (s.writeReg i v).mpc = s.mpc := rfl

@[simp] theorem writeReg_mir (s : State) (i : RegIdx) (v : Word) : (s.writeReg i v).mir = s.mir := rfl

@[simp] theorem writeReg_phase (s : State) (i : RegIdx) (v : Word) : (s.writeReg i v).phase = s.phase := rfl

@[simp] theorem writeReg_n (s : State) (i : RegIdx) (v : Word) : (s.writeReg i v).n = s.n := rfl

@[simp] theorem writeReg_z (s : State) (i : RegIdx) (v : Word) : (s.writeReg i v).z = s.z := rfl

@[simp] theorem writeReg_latchA (s : State) (i : RegIdx) (v : Word) : (s.writeReg i v).latchA = s.latchA := rfl

@[simp] theorem writeReg_latchB (s : State) (i : RegIdx) (v : Word) : (s.writeReg i v).latchB = s.latchB := rfl

@[simp] theorem writeReg_aluResult (s : State) (i : RegIdx) (v : Word) : (s.writeReg i v).aluResult = s.aluResult := rfl

@[simp] theorem writeReg_faults (s : State) (i : RegIdx) (v : Word) : (s.writeReg i v).faults = s.faults := rfl

@[simp] theorem writeReg_refused (s : State) (i : RegIdx) (v : Word) : (s.writeReg i v).refused = s.refused := rfl

/-! ### raise -/

@[simp] theorem raise_cfg (s : State) (e : FaultEvent) : (s.raise e).cfg = s.cfg := rfl

@[simp] theorem raise_regs (s : State) (e : FaultEvent) : (s.raise e).regs = s.regs := rfl

@[simp] theorem raise_mem (s : State) (e : FaultEvent) : (s.raise e).mem = s.mem := rfl

@[simp] theorem raise_lines (s : State) (e : FaultEvent) : (s.raise e).lines = s.lines := rfl

@[simp] theorem raise_mpc (s : State) (e : FaultEvent) : (s.raise e).mpc = s.mpc := rfl

@[simp] theorem raise_mir (s : State) (e : FaultEvent) : (s.raise e).mir = s.mir := rfl

@[simp] theorem raise_phase (s : State) (e : FaultEvent) : (s.raise e).phase = s.phase := rfl

@[simp] theorem raise_n (s : State) (e : FaultEvent) : (s.raise e).n = s.n := rfl

@[simp] theorem raise_z (s : State) (e : FaultEvent) : (s.raise e).z = s.z := rfl

@[simp] theorem raise_latchA (s : State) (e : FaultEvent) : (s.raise e).latchA = s.latchA := rfl

@[simp] theorem raise_latchB (s : State) (e : FaultEvent) : (s.raise e).latchB = s.latchB := rfl

@[simp] theorem raise_aluResult (s : State) (e : FaultEvent) : (s.raise e).aluResult = s.aluResult := rfl

@[simp] theorem raise_faults (s : State) (e : FaultEvent) : (s.raise e).faults = s.faults ++ [e] := rfl

@[simp] theorem raise_refused (s : State) (e : FaultEvent) : (s.raise e).refused = s.refused := rfl

/-! ### aluStage -/

@[simp] theorem aluStage_cfg (s : State) (w : Word) : (s.aluStage w).cfg = s.cfg := rfl

@[simp] theorem aluStage_regs (s : State) (w : Word) : (s.aluStage w).regs = s.regs := rfl

@[simp] theorem aluStage_mem (s : State) (w : Word) : (s.aluStage w).mem = s.mem := rfl

@[simp] theorem aluStage_lines (s : State) (w : Word) : (s.aluStage w).lines = s.lines := rfl

@[simp] theorem aluStage_mpc (s : State) (w : Word) : (s.aluStage w).mpc = s.mpc := rfl

@[simp] theorem aluStage_mir (s : State) (w : Word) : (s.aluStage w).mir = s.mir := rfl

@[simp] theorem aluStage_phase (s : State) (w : Word) : (s.aluStage w).phase = s.phase := rfl

@[simp] theorem aluStage_n (s : State) (w : Word) : (s.aluStage w).n = s.n := rfl

@[simp] theorem aluStage_z (s : State) (w : Word) : (s.aluStage w).z = s.z := rfl

@[simp] theorem aluStage_latchA (s : State) (w : Word) : (s.aluStage w).latchA = s.latchA := rfl

@[simp] theorem aluStage_latchB (s : State) (w : Word) : (s.aluStage w).latchB = s.latchB := rfl

@[simp] theorem aluStage_aluResult (s : State) (w : Word) : (s.aluStage w).aluResult = w := rfl

@[simp] theorem aluStage_faults (s : State) (w : Word) : (s.aluStage w).faults = s.faults := rfl

@[simp] theorem aluStage_refused (s : State) (w : Word) : (s.aluStage w).refused = s.refused := rfl

/-! ### finishAlu -/

@[simp] theorem finishAlu_cfg (s : State) (r : Word) : (s.finishAlu r).cfg = s.cfg := rfl

@[simp] theorem finishAlu_regs (s : State) (r : Word) : (s.finishAlu r).regs = s.regs := rfl

@[simp] theorem finishAlu_mem (s : State) (r : Word) : (s.finishAlu r).mem = s.mem := rfl

@[simp] theorem finishAlu_lines (s : State) (r : Word) : (s.finishAlu r).lines = s.lines := rfl

@[simp] theorem finishAlu_mpc (s : State) (r : Word) : (s.finishAlu r).mpc = s.mpc := rfl

@[simp] theorem finishAlu_mir (s : State) (r : Word) : (s.finishAlu r).mir = s.mir := rfl

@[simp] theorem finishAlu_phase (s : State) (r : Word) : (s.finishAlu r).phase = s.phase := rfl

@[simp] theorem finishAlu_n (s : State) (r : Word) : (s.finishAlu r).n = flagN r := rfl

@[simp] theorem finishAlu_z (s : State) (r : Word) : (s.finishAlu r).z = flagZ r := rfl

@[simp] theorem finishAlu_latchA (s : State) (r : Word) : (s.finishAlu r).latchA = s.latchA := rfl

@[simp] theorem finishAlu_latchB (s : State) (r : Word) : (s.finishAlu r).latchB = s.latchB := rfl

@[simp] theorem finishAlu_aluResult (s : State) (r : Word) : (s.finishAlu r).aluResult = r := rfl

@[simp] theorem finishAlu_faults (s : State) (r : Word) : (s.finishAlu r).faults = s.faults := rfl

@[simp] theorem finishAlu_refused (s : State) (r : Word) : (s.finishAlu r).refused = s.refused := rfl

/-! ### selectMbr -/

@[simp] theorem selectMbr_cfg (s : State) : s.selectMbr.cfg = s.cfg := rfl

@[simp] theorem selectMbr_regs (s : State) : s.selectMbr.regs = s.regs := rfl

@[simp] theorem selectMbr_mem (s : State) : s.selectMbr.mem = s.mem := rfl

@[simp] theorem selectMbr_lines (s : State) : s.selectMbr.lines = s.lines := rfl

@[simp] theorem selectMbr_mpc (s : State) : s.selectMbr.mpc = s.mpc := rfl

@[simp] theorem selectMbr_mir (s : State) : s.selectMbr.mir = s.mir := rfl

@[simp] theorem selectMbr_phase (s : State) : s.selectMbr.phase = s.phase := rfl

@[simp] theorem selectMbr_n (s : State) : s.selectMbr.n = s.n := rfl

@[simp] theorem selectMbr_z (s : State) : s.selectMbr.z = s.z := rfl

@[simp] theorem selectMbr_latchA (s : State) : s.selectMbr.latchA = s.readReg Slot.mbr := rfl

@[simp] theorem selectMbr_latchB (s : State) : s.selectMbr.latchB = s.latchB := rfl

@[simp] theorem selectMbr_aluResult (s : State) : s.selectMbr.aluResult = s.aluResult := rfl

@[simp] theorem selectMbr_faults (s : State) : s.selectMbr.faults = s.faults := rfl

@[simp] theorem selectMbr_refused (s : State) : s.selectMbr.refused = s.refused := rfl

/-! ### decodeRead -/

@[simp] theorem decodeRead_cfg (s : State) (f : Micro) : (s.decodeRead f).cfg = s.cfg := rfl

@[simp] theorem decodeRead_regs (s : State) (f : Micro) : (s.decodeRead f).regs = s.regs := rfl

@[simp] theorem decodeRead_mem (s : State) (f : Micro) : (s.decodeRead f).mem = s.mem := rfl

@[simp] theorem decodeRead_lines (s : State) (f : Micro) : (s.decodeRead f).lines = s.lines := rfl

@[simp] theorem decodeRead_mpc (s : State) (f : Micro) : (s.decodeRead f).mpc = s.mpc := rfl

@[simp] theorem decodeRead_mir (s : State) (f : Micro) : (s.decodeRead f).mir = s.mir := rfl

@[simp] theorem decodeRead_phase (s : State) (f : Micro) : (s.decodeRead f).phase = s.phase := rfl

@[simp] theorem decodeRead_n (s : State) (f : Micro) : (s.decodeRead f).n = s.n := rfl

@[simp] theorem decodeRead_z (s : State) (f : Micro) : (s.decodeRead f).z = s.z := rfl

@[simp] theorem decodeRead_latchA (s : State) (f : Micro) : (s.decodeRead f).latchA = s.readReg (BitVec.ofNat 4 f.a) := rfl

@[simp] theorem decodeRead_latchB (s : State) (f : Micro) : (s.decodeRead f).latchB = s.readReg (BitVec.ofNat 4 f.b) := rfl

@[simp] theorem decodeRead_aluResult (s : State) (f : Micro) : (s.decodeRead f).aluResult = s.aluResult := rfl

@[simp] theorem decodeRead_faults (s : State) (f : Micro) : (s.decodeRead f).faults = s.faults := rfl

@[simp] theorem decodeRead_refused (s : State) (f : Micro) : (s.decodeRead f).refused = s.refused := rfl

/-! ### refuse -/

@[simp] theorem refuse_cfg (s : State) (r : RefusalReason) : (s.refuse r).cfg = s.cfg := rfl

@[simp] theorem refuse_regs (s : State) (r : RefusalReason) : (s.refuse r).regs = s.regs := rfl

@[simp] theorem refuse_mem (s : State) (r : RefusalReason) : (s.refuse r).mem = s.mem := rfl

@[simp] theorem refuse_lines (s : State) (r : RefusalReason) : (s.refuse r).lines = s.lines := rfl

@[simp] theorem refuse_mpc (s : State) (r : RefusalReason) : (s.refuse r).mpc = s.mpc := rfl

@[simp] theorem refuse_mir (s : State) (r : RefusalReason) : (s.refuse r).mir = s.mir := rfl

@[simp] theorem refuse_phase (s : State) (r : RefusalReason) : (s.refuse r).phase = s.phase := rfl

@[simp] theorem refuse_n (s : State) (r : RefusalReason) : (s.refuse r).n = s.n := rfl

@[simp] theorem refuse_z (s : State) (r : RefusalReason) : (s.refuse r).z = s.z := rfl

@[simp] theorem refuse_latchA (s : State) (r : RefusalReason) : (s.refuse r).latchA = s.latchA := rfl

@[simp] theorem refuse_latchB (s : State) (r : RefusalReason) : (s.refuse r).latchB = s.latchB := rfl

@[simp] theorem refuse_aluResult (s : State) (r : RefusalReason) : (s.refuse r).aluResult = s.aluResult := rfl

@[simp] theorem refuse_faults (s : State) (r : RefusalReason) : (s.refuse r).faults = s.faults := rfl

@[simp] theorem refuse_refused (s : State) (r : RefusalReason) : (s.refuse r).refused = some r := rfl

/-! ### goTo -/

@[simp] theorem goTo_cfg (s : State) (a : MicroAddr) : (s.goTo a).cfg = s.cfg := rfl

@[simp] theorem goTo_regs (s : State) (a : MicroAddr) : (s.goTo a).regs = s.regs := rfl

@[simp] theorem goTo_mem (s : State) (a : MicroAddr) : (s.goTo a).mem = s.mem := rfl

@[simp] theorem goTo_lines (s : State) (a : MicroAddr) : (s.goTo a).lines = s.lines := rfl

@[simp] theorem goTo_mpc (s : State) (a : MicroAddr) : (s.goTo a).mpc = a := rfl

@[simp] theorem goTo_mir (s : State) (a : MicroAddr) : (s.goTo a).mir = s.mir := rfl

@[simp] theorem goTo_phase (s : State) (a : MicroAddr) : (s.goTo a).phase = s.phase := rfl

@[simp] theorem goTo_n (s : State) (a : MicroAddr) : (s.goTo a).n = s.n := rfl

@[simp] theorem goTo_z (s : State) (a : MicroAddr) : (s.goTo a).z = s.z := rfl

@[simp] theorem goTo_latchA (s : State) (a : MicroAddr) : (s.goTo a).latchA = s.latchA := rfl

@[simp] theorem goTo_latchB (s : State) (a : MicroAddr) : (s.goTo a).latchB = s.latchB := rfl

@[simp] theorem goTo_aluResult (s : State) (a : MicroAddr) : (s.goTo a).aluResult = s.aluResult := rfl

@[simp] theorem goTo_faults (s : State) (a : MicroAddr) : (s.goTo a).faults = s.faults := rfl

@[simp] theorem goTo_refused (s : State) (a : MicroAddr) : (s.goTo a).refused = s.refused := rfl

/-! ### memWrite -/

@[simp] theorem memWrite_cfg (s : State) (a : Nat) (v : Word) : (s.memWrite a v).cfg = s.cfg := by
  unfold State.memWrite; split <;> rfl

@[simp] theorem memWrite_regs (s : State) (a : Nat) (v : Word) : (s.memWrite a v).regs = s.regs := by
  unfold State.memWrite; split <;> rfl

@[simp] theorem memWrite_lines (s : State) (a : Nat) (v : Word) : (s.memWrite a v).lines = s.lines := by
  unfold State.memWrite; split <;> rfl

@[simp] theorem memWrite_mpc (s : State) (a : Nat) (v : Word) : (s.memWrite a v).mpc = s.mpc := by
  unfold State.memWrite; split <;> rfl

@[simp] theorem memWrite_mir (s : State) (a : Nat) (v : Word) : (s.memWrite a v).mir = s.mir := by
  unfold State.memWrite; split <;> rfl

@[simp] theorem memWrite_phase (s : State) (a : Nat) (v : Word) : (s.memWrite a v).phase = s.phase := by
  unfold State.memWrite; split <;> rfl

@[simp] theorem memWrite_n (s : State) (a : Nat) (v : Word) : (s.memWrite a v).n = s.n := by
  unfold State.memWrite; split <;> rfl

@[simp] theorem memWrite_z (s : State) (a : Nat) (v : Word) : (s.memWrite a v).z = s.z := by
  unfold State.memWrite; split <;> rfl

@[simp] theorem memWrite_latchA (s : State) (a : Nat) (v : Word) : (s.memWrite a v).latchA = s.latchA := by
  unfold State.memWrite; split <;> rfl

@[simp] theorem memWrite_latchB (s : State) (a : Nat) (v : Word) : (s.memWrite a v).latchB = s.latchB := by
  unfold State.memWrite; split <;> rfl

@[simp] theorem memWrite_aluResult (s : State) (a : Nat) (v : Word) : (s.memWrite a v).aluResult = s.aluResult := by
  unfold State.memWrite; split <;> rfl

@[simp] theorem memWrite_faults (s : State) (a : Nat) (v : Word) : (s.memWrite a v).faults = s.faults := by
  unfold State.memWrite; split <;> rfl

@[simp] theorem memWrite_refused (s : State) (a : Nat) (v : Word) : (s.memWrite a v).refused = s.refused := by
  unfold State.memWrite; split <;> rfl

/-! ### fetchMicro -/

@[simp] theorem fetchMicro_cfg (s : State) : s.fetchMicro.cfg = s.cfg := by
  unfold State.fetchMicro; split <;> rfl

@[simp] theorem fetchMicro_regs (s : State) : s.fetchMicro.regs = s.regs := by
  unfold State.fetchMicro; split <;> rfl

@[simp] theorem fetchMicro_mem (s : State) : s.fetchMicro.mem = s.mem := by
  unfold State.fetchMicro; split <;> rfl

@[simp] theorem fetchMicro_lines (s : State) : s.fetchMicro.lines = s.lines := by
  unfold State.fetchMicro; split <;> rfl

@[simp] theorem fetchMicro_mpc (s : State) : s.fetchMicro.mpc = s.mpc := by
  unfold State.fetchMicro; split <;> rfl

@[simp] theorem fetchMicro_phase (s : State) : s.fetchMicro.phase = s.phase := by
  unfold State.fetchMicro; split <;> rfl

@[simp] theorem fetchMicro_n (s : State) : s.fetchMicro.n = s.n := by
  unfold State.fetchMicro; split <;> rfl

@[simp] theorem fetchMicro_z (s : State) : s.fetchMicro.z = s.z := by
  unfold State.fetchMicro; split <;> rfl

@[simp] theorem fetchMicro_latchA (s : State) : s.fetchMicro.latchA = s.latchA := by
  unfold State.fetchMicro; split <;> rfl

@[simp] theorem fetchMicro_latchB (s : State) : s.fetchMicro.latchB = s.latchB := by
  unfold State.fetchMicro; split <;> rfl

@[simp] theorem fetchMicro_aluResult (s : State) : s.fetchMicro.aluResult = s.aluResult := by
  unfold State.fetchMicro; split <;> rfl

@[simp] theorem fetchMicro_refused (s : State) : s.fetchMicro.refused = s.refused := by
  unfold State.fetchMicro; split <;> rfl

/-! ### endStep -/

@[simp] theorem endStep_cfg (s : State) : s.endStep.cfg = s.cfg := by
  unfold State.endStep; split <;> rfl

@[simp] theorem endStep_regs (s : State) : s.endStep.regs = s.regs := by
  unfold State.endStep; split <;> rfl

@[simp] theorem endStep_mem (s : State) : s.endStep.mem = s.mem := by
  unfold State.endStep; split <;> rfl

@[simp] theorem endStep_lines (s : State) : s.endStep.lines = s.lines := by
  unfold State.endStep; split <;> rfl

@[simp] theorem endStep_mpc (s : State) : s.endStep.mpc = s.mpc := by
  unfold State.endStep; split <;> rfl

@[simp] theorem endStep_mir (s : State) : s.endStep.mir = s.mir := by
  unfold State.endStep; split <;> rfl

@[simp] theorem endStep_n (s : State) : s.endStep.n = s.n := by
  unfold State.endStep; split <;> rfl

@[simp] theorem endStep_z (s : State) : s.endStep.z = s.z := by
  unfold State.endStep; split <;> rfl

@[simp] theorem endStep_latchA (s : State) : s.endStep.latchA = s.latchA := by
  unfold State.endStep; split <;> rfl

@[simp] theorem endStep_latchB (s : State) : s.endStep.latchB = s.latchB := by
  unfold State.endStep; split <;> rfl

@[simp] theorem endStep_aluResult (s : State) : s.endStep.aluResult = s.aluResult := by
  unfold State.endStep; split <;> rfl

@[simp] theorem endStep_faults (s : State) : s.endStep.faults = s.faults := by
  unfold State.endStep; split <;> rfl

@[simp] theorem endStep_refused (s : State) : s.endStep.refused = s.refused := by
  unfold State.endStep; split <;> rfl

/-! ### The state a cache read leaves -/

@[simp] theorem cacheRead_cfg (s : State) (a : Nat) : (s.cacheRead a).2.2.cfg = s.cfg := by
  unfold State.cacheRead; split <;> rfl

@[simp] theorem cacheRead_regs (s : State) (a : Nat) : (s.cacheRead a).2.2.regs = s.regs := by
  unfold State.cacheRead; split <;> rfl

@[simp] theorem cacheRead_mem (s : State) (a : Nat) : (s.cacheRead a).2.2.mem = s.mem := by
  unfold State.cacheRead; split <;> rfl

@[simp] theorem cacheRead_mpc (s : State) (a : Nat) : (s.cacheRead a).2.2.mpc = s.mpc := by
  unfold State.cacheRead; split <;> rfl

@[simp] theorem cacheRead_mir (s : State) (a : Nat) : (s.cacheRead a).2.2.mir = s.mir := by
  unfold State.cacheRead; split <;> rfl

@[simp] theorem cacheRead_phase (s : State) (a : Nat) : (s.cacheRead a).2.2.phase = s.phase := by
  unfold State.cacheRead; split <;> rfl

@[simp] theorem cacheRead_n (s : State) (a : Nat) : (s.cacheRead a).2.2.n = s.n := by
  unfold State.cacheRead; split <;> rfl

@[simp] theorem cacheRead_z (s : State) (a : Nat) : (s.cacheRead a).2.2.z = s.z := by
  unfold State.cacheRead; split <;> rfl

@[simp] theorem cacheRead_latchA (s : State) (a : Nat) : (s.cacheRead a).2.2.latchA = s.latchA := by
  unfold State.cacheRead; split <;> rfl

@[simp] theorem cacheRead_latchB (s : State) (a : Nat) : (s.cacheRead a).2.2.latchB = s.latchB := by
  unfold State.cacheRead; split <;> rfl

@[simp] theorem cacheRead_aluResult (s : State) (a : Nat) : (s.cacheRead a).2.2.aluResult = s.aluResult := by
  unfold State.cacheRead; split <;> rfl

@[simp] theorem cacheRead_faults (s : State) (a : Nat) : (s.cacheRead a).2.2.faults = s.faults := by
  unfold State.cacheRead; split <;> rfl

@[simp] theorem cacheRead_refused (s : State) (a : Nat) : (s.cacheRead a).2.2.refused = s.refused := by
  unfold State.cacheRead; split <;> rfl

/-! ### The state a cache write leaves -/

@[simp] theorem cacheWrite_cfg (s : State) (a : Nat) (v : Word) : (s.cacheWrite a v).2.cfg = s.cfg := by
  unfold State.cacheWrite State.memWrite; dsimp only; split <;> split <;> rfl

@[simp] theorem cacheWrite_regs (s : State) (a : Nat) (v : Word) : (s.cacheWrite a v).2.regs = s.regs := by
  unfold State.cacheWrite State.memWrite; dsimp only; split <;> split <;> rfl

@[simp] theorem cacheWrite_mpc (s : State) (a : Nat) (v : Word) : (s.cacheWrite a v).2.mpc = s.mpc := by
  unfold State.cacheWrite State.memWrite; dsimp only; split <;> split <;> rfl

@[simp] theorem cacheWrite_mir (s : State) (a : Nat) (v : Word) : (s.cacheWrite a v).2.mir = s.mir := by
  unfold State.cacheWrite State.memWrite; dsimp only; split <;> split <;> rfl

@[simp] theorem cacheWrite_phase (s : State) (a : Nat) (v : Word) : (s.cacheWrite a v).2.phase = s.phase := by
  unfold State.cacheWrite State.memWrite; dsimp only; split <;> split <;> rfl

@[simp] theorem cacheWrite_n (s : State) (a : Nat) (v : Word) : (s.cacheWrite a v).2.n = s.n := by
  unfold State.cacheWrite State.memWrite; dsimp only; split <;> split <;> rfl

@[simp] theorem cacheWrite_z (s : State) (a : Nat) (v : Word) : (s.cacheWrite a v).2.z = s.z := by
  unfold State.cacheWrite State.memWrite; dsimp only; split <;> split <;> rfl

@[simp] theorem cacheWrite_latchA (s : State) (a : Nat) (v : Word) : (s.cacheWrite a v).2.latchA = s.latchA := by
  unfold State.cacheWrite State.memWrite; dsimp only; split <;> split <;> rfl

@[simp] theorem cacheWrite_latchB (s : State) (a : Nat) (v : Word) : (s.cacheWrite a v).2.latchB = s.latchB := by
  unfold State.cacheWrite State.memWrite; dsimp only; split <;> split <;> rfl

@[simp] theorem cacheWrite_aluResult (s : State) (a : Nat) (v : Word) : (s.cacheWrite a v).2.aluResult = s.aluResult := by
  unfold State.cacheWrite State.memWrite; dsimp only; split <;> split <;> rfl

@[simp] theorem cacheWrite_faults (s : State) (a : Nat) (v : Word) : (s.cacheWrite a v).2.faults = s.faults := by
  unfold State.cacheWrite State.memWrite; dsimp only; split <;> split <;> rfl

@[simp] theorem cacheWrite_refused (s : State) (a : Nat) (v : Word) : (s.cacheWrite a v).2.refused = s.refused := by
  unfold State.cacheWrite State.memWrite; dsimp only; split <;> split <;> rfl

end Sys2Proof.Machine.State
end

