-- ==== Sys2Proof/Laws/Ops.lean ====
section
/-! SUPPORT. What the shared operations do: the register file, main memory, and the sequencing of outcomes. -/

namespace Sys2Proof.Machine

/-! ### Register file -/

/-- The slots that store what is written to them. -/
def Slot.stores (i : RegIdx) : Bool := decide (1 ≤ i.toNat ∧ i.toNat ≤ 7) || decide (13 ≤ i.toNat)

/-- R24, R25 in one: a write to a storing slot is read back there and nowhere else. -/
theorem Regs.read_write (r : Regs) (i j : RegIdx) (v : Word) :
    (r.write i v).read j = if j = i ∧ Slot.stores i = true then v else r.read j := by
  have hi : i.toNat < 16 := i.isLt
  have hj : j.toNat < 16 := j.isLt
  have hij : j = i ↔ j.toNat = i.toNat := BitVec.toNat_inj.symm
  simp only [hij, Regs.read, Regs.write, Slot.stores]
  generalize i.toNat = a at *
  generalize j.toNat = b at *
  interval_cases a <;> interval_cases b <;> simp

/-- A write to slot 0 or to a read-only slot is dropped (R23, R25). -/
theorem Regs.write_of_not_stores (r : Regs) (i : RegIdx) (v : Word) (h : Slot.stores i = false) : r.write i v = r := by
  have hi : i.toNat < 16 := i.isLt
  simp only [Regs.write, Slot.stores] at *
  generalize i.toNat = a at *
  interval_cases a <;> simp_all

/-- R24, R25 on the state. -/
theorem State.readReg_writeReg (s : State) (i j : RegIdx) (v : Word) :
    (s.writeReg i v).readReg j = if j = i ∧ Slot.stores i = true then v else s.readReg j :=
  Regs.read_write s.regs i j v

@[simp] theorem Regs.write_mar (r : Regs) (v : Word) : r.write Slot.mar v = { r with mar := v } := rfl
@[simp] theorem Regs.write_mbr (r : Regs) (v : Word) : r.write Slot.mbr v = { r with mbr := v } := rfl
@[simp] theorem Regs.read_mar (r : Regs) : r.read Slot.mar = r.mar := rfl
@[simp] theorem Regs.read_mbr (r : Regs) : r.read Slot.mbr = r.mbr := rfl
@[simp] theorem Regs.read_ir (r : Regs) : r.read Slot.ir = r.ir := rfl

@[simp] theorem State.readReg_mar (s : State) : s.readReg Slot.mar = s.regs.mar := rfl
@[simp] theorem State.readReg_mbr (s : State) : s.readReg Slot.mbr = s.regs.mbr := rfl
@[simp] theorem State.readReg_ir (s : State) : s.readReg Slot.ir = s.regs.ir := rfl
@[simp] theorem State.dataAddr_eq (s : State) : s.dataAddr = s.regs.mar.toNat := rfl

/-! ### Memory as a list of words -/

@[simp] theorem Memory.read_nil (a : Nat) : Memory.read [] a = 0 := rfl

theorem Memory.read_cons (b : Nat) (w : Word) (m : Memory) (a : Nat) :
    Memory.read ((b, w) :: m) a = if a = b then w else Memory.read m a := by
  unfold Memory.read
  by_cases h : a = b
  · simp [List.lookup, h]
  · have : (a == b) = false := by simpa using h
    simp [List.lookup, this, h]

/-- An address below every listed one reads as 0. -/
theorem Memory.read_of_lt (m : Memory) (a : Nat) (h : ∀ p ∈ m, a < p.1) : Memory.read m a = 0 := by
  induction m with
  | nil => rfl
  | cons p m ih =>
    have h1 := h p (by simp)
    rw [show p = (p.1, p.2) from rfl, Memory.read_cons, if_neg (by omega)]
    exact ih fun q hq => h q (by simp [hq])

/-- A write changes no other word, in any list. -/
theorem Memory.read_write_ne (m : Memory) (a b : Nat) (v : Word) (h : b ≠ a) :
    Memory.read (Memory.write m a v) b = Memory.read m b := by
  induction m with
  | nil => unfold Memory.write; split <;> simp [Memory.read_cons, h]
  | cons p m ih =>
    obtain ⟨c, w⟩ := p
    simp only [Memory.write]
    split
    · split <;> simp [Memory.read_cons, h]
    · split
      · split <;> simp_all [Memory.read_cons]
      · simp [Memory.read_cons, ih]

/-- A write to a canonical memory is read back. -/
theorem Memory.read_write_same (m : Memory) (a : Nat) (v : Word) (h : Memory.wf m) :
    Memory.read (Memory.write m a v) a = v := by
  induction m with
  | nil =>
    unfold Memory.write
    split
    · simp_all
    · simp [Memory.read_cons]
  | cons p m ih =>
    obtain ⟨c, w⟩ := p
    obtain ⟨hp, hz⟩ := h
    rw [List.pairwise_cons] at hp
    have tail_wf : Memory.wf m := ⟨hp.2, fun q hq => hz q (by simp [hq])⟩
    simp only [Memory.write]
    split
    · next hlt =>
      split
      · next hv =>
        rw [hv]
        refine Memory.read_of_lt _ _ fun q hq => ?_
        rcases List.mem_cons.mp hq with rfl | hq
        · exact hlt
        · exact lt_trans hlt (hp.1 q hq)
      · simp [Memory.read_cons]
    · split
      · next hac =>
        split
        · next hv =>
          rw [hv, hac]
          exact Memory.read_of_lt _ _ fun q hq => hp.1 q hq
        · simp [Memory.read_cons]
      · next hac => simp [Memory.read_cons, hac, ih tail_wf]

/-- What a write lists: the word written, if it is not 0, and the words that were listed at other addresses. -/
theorem Memory.mem_write (m : Memory) (a : Nat) (v : Word) (p : Nat × Word) (h : p ∈ Memory.write m a v) :
    (p = (a, v) ∧ v ≠ 0) ∨ p ∈ m := by
  induction m with
  | nil => unfold Memory.write at h; split at h <;> simp_all
  | cons q m ih =>
    obtain ⟨c, w⟩ := q
    simp only [Memory.write] at h
    split at h
    · split at h
      · exact .inr h
      · rcases List.mem_cons.mp h with rfl | h
        · exact .inl ⟨rfl, ‹_›⟩
        · exact .inr h
    · split at h
      · split at h
        · exact .inr (List.mem_cons_of_mem _ h)
        · rcases List.mem_cons.mp h with rfl | h
          · exact .inl ⟨rfl, ‹_›⟩
          · exact .inr (List.mem_cons_of_mem _ h)
      · rcases List.mem_cons.mp h with rfl | h
        · exact .inr (by simp)
        · rcases ih h with h | h
          · exact .inl h
          · exact .inr (List.mem_cons_of_mem _ h)

/-- A write keeps the canonical form. -/
theorem Memory.wf_write (m : Memory) (a : Nat) (v : Word) (h : Memory.wf m) : Memory.wf (Memory.write m a v) := by
  refine ⟨?_, fun p hp => ?_⟩
  · induction m with
    | nil => unfold Memory.write; split <;> simp
    | cons q m ih =>
      obtain ⟨c, w⟩ := q
      obtain ⟨hp, hz⟩ := h
      have hp' := hp
      rw [List.pairwise_cons] at hp
      have tail_wf : Memory.wf m := ⟨hp.2, fun q hq => hz q (by simp [hq])⟩
      simp only [Memory.write]
      split
      · next hlt =>
        split
        · exact hp'
        · refine List.pairwise_cons.mpr ⟨fun q hq => ?_, hp'⟩
          rcases List.mem_cons.mp hq with rfl | hq
          · exact hlt
          · exact lt_trans hlt (hp.1 q hq)
      · split
        · next hac =>
          split
          · exact hp.2
          · exact List.pairwise_cons.mpr ⟨fun q hq => by simpa [hac] using hp.1 q hq, hp.2⟩
        · refine List.pairwise_cons.mpr ⟨fun q hq => ?_, ih tail_wf⟩
          rcases Memory.mem_write m a v q hq with ⟨rfl, -⟩ | hq
          · simp; omega
          · exact hp.1 q hq
  · rcases Memory.mem_write m a v p hp with ⟨rfl, hv⟩ | hp
    · exact hv
    · exact h.2 p hp

/-! ### Main memory of the state -/

/-- The words a state reads depend on its parameters and its memory alone. -/
theorem State.memRead_congr (s t : State) (hc : s.cfg = t.cfg) (hm : s.mem = t.mem) (a : Nat) :
    s.memRead a = t.memRead a := by
  simp [State.memRead, hc, hm]

/-- R52, R51 in one: what a read sees after a write. -/
theorem State.memRead_memWrite (s : State) (a b : Nat) (v : Word) (h : Memory.wf s.mem) :
    (s.memWrite a v).memRead b = if b = a ∧ a < s.cfg.memorySize then v else s.memRead b := by
  unfold State.memWrite
  by_cases ha : a < s.cfg.memorySize
  · rw [if_pos ha]
    by_cases hb : b = a
    · subst hb
      simp [State.memRead, ha, Memory.read_write_same _ _ _ h]
    · simp [State.memRead, hb, Memory.read_write_ne _ _ _ _ hb]
  · simp [ha]

/-- A write to another address is not seen, whatever the form of the memory. -/
theorem State.memRead_memWrite_ne (s : State) (a b : Nat) (v : Word) (h : b ≠ a) :
    (s.memWrite a v).memRead b = s.memRead b := by
  unfold State.memWrite
  split
  · simp [State.memRead, Memory.read_write_ne _ _ _ _ h]
  · rfl

/-- A memory write keeps the memory's form, and lists only backed addresses. -/
theorem State.memoryWellFormed_memWrite (s : State) (a : Nat) (v : Word) (h : s.MemoryWellFormed) :
    (s.memWrite a v).MemoryWellFormed := by
  unfold State.memWrite
  split
  · next ha =>
    refine ⟨Memory.wf_write _ _ _ h.1, fun p hp => ?_⟩
    rcases Memory.mem_write _ _ _ _ hp with ⟨rfl, -⟩ | hp
    · exact ha
    · exact h.2 p hp
  · exact h

/-- R53: the block's word at an offset within it. -/
theorem State.getBlock_getD (s : State) (start o : Nat) (h : o < s.cfg.blockSize) :
    (s.getBlock start).getD o 0 = s.memRead (start + o) := by
  simp [State.getBlock, List.getD, h]

@[simp] theorem State.getBlock_length (s : State) (start : Nat) : (s.getBlock start).length = s.cfg.blockSize := by
  simp [State.getBlock]

/-! ### Outcomes -/

@[simp] theorem Result.andThen_next (s : State) (k : State → Result) : Result.andThen (.next s) k = k s := rfl

/-- A sequence answers a next state only through one. -/
theorem Result.andThen_eq_next (o : Result) (k : State → Result) (t : State) (h : Result.andThen o k = .next t) :
    ∃ u, o = .next u ∧ k u = .next t := by
  cases o with
  | next u => exact ⟨u, rfl, h⟩
  | fault r => cases h
  | refused r => cases h

theorem execAll_append (xs ys : List Instr) (s : State) :
    execAll (xs ++ ys) s = Result.andThen (execAll xs s) (execAll ys) := by
  induction xs generalizing s with
  | nil => rfl
  | cons i xs ih =>
    simp only [List.cons_append, execAll]
    cases exec i s with
    | next u => simpa using ih u
    | fault r => rfl
    | refused r => rfl

end Sys2Proof.Machine
end

