-- ==== Sys2Proof/Laws/Cache.lean ====
section
/-! SUPPORT. The cache: its address arithmetic (spec/20_memory.md R58), what its two operations do (R59, R60), and that they keep the
cache's form and its coherence (R65). -/

namespace Sys2Proof.Machine

/-! ### Address arithmetic -/

/-- R58 split an address; this is the address back. -/
theorem addr_of_parts (cfg : Config) (a : Nat) :
    (cfg.tagOf a * cfg.cacheSize + cfg.indexOf a) * cfg.blockSize + cfg.offsetOf a = a := by
  unfold Config.tagOf Config.indexOf Config.offsetOf
  rw [← Nat.div_div_eq_div_mul, Nat.mul_comm (a / cfg.blockSize / cfg.cacheSize), Nat.div_add_mod,
    Nat.mul_comm, Nat.div_add_mod]

theorem indexOf_lt (cfg : Config) (a : Nat) (h : 1 ≤ cfg.cacheSize) : cfg.indexOf a < cfg.cacheSize :=
  Nat.mod_lt _ h

theorem offsetOf_lt (cfg : Config) (a : Nat) (h : 1 ≤ cfg.blockSize) : cfg.offsetOf a < cfg.blockSize :=
  Nat.mod_lt _ h

/-- The parts of an address are one-to-one (R58). -/
theorem parts_of_addr (cfg : Config) (t i o : Nat) (hi : i < cfg.cacheSize) (ho : o < cfg.blockSize) :
    cfg.offsetOf ((t * cfg.cacheSize + i) * cfg.blockSize + o) = o ∧
    cfg.indexOf ((t * cfg.cacheSize + i) * cfg.blockSize + o) = i ∧
    cfg.tagOf ((t * cfg.cacheSize + i) * cfg.blockSize + o) = t := by
  have hb : 0 < cfg.blockSize := by omega
  have hc : 0 < cfg.cacheSize := by omega
  have hdiv : ((t * cfg.cacheSize + i) * cfg.blockSize + o) / cfg.blockSize = t * cfg.cacheSize + i := by
    rw [Nat.mul_comm, Nat.mul_add_div hb, Nat.div_eq_of_lt ho, Nat.add_zero]
  refine ⟨?_, ?_, ?_⟩
  · simp [Config.offsetOf, Nat.mod_eq_of_lt ho]
  · simp [Config.indexOf, hdiv, Nat.mod_eq_of_lt hi]
  · rw [Config.tagOf, ← Nat.div_div_eq_div_mul, hdiv, Nat.mul_comm, Nat.mul_add_div hc, Nat.div_eq_of_lt hi,
      Nat.add_zero]

/-- The block of an address starts `offset` below it (R55, R59). -/
theorem block_start (cfg : Config) (a o : Nat) :
    a - cfg.offsetOf a + o = (cfg.tagOf a * cfg.cacheSize + cfg.indexOf a) * cfg.blockSize + o := by
  have := addr_of_parts cfg a
  omega

/-! ### Lines -/

theorem State.line_set (s : State) (i j : Nat) (l : CacheLine) (h : i < s.lines.length) :
    State.line { s with lines := s.lines.set i l } j = if j = i then l else s.line j := by
  unfold State.line
  by_cases hj : j = i
  · subst hj; simp [List.getD, h]
  · simp [List.getD, hj, List.getElem?_set_ne (Ne.symm hj)]

theorem State.line_mem (s : State) (i : Nat) (h : i < s.lines.length) : s.line i ∈ s.lines := by
  simp [State.line, List.getD, h]

theorem CacheLine.word_store (l : CacheLine) (i o : Nat) (v : Word) (h : i < l.data.length) :
    (l.store i v).word o = if o = i then v else l.word o := by
  unfold CacheLine.store CacheLine.word
  by_cases ho : o = i
  · subst ho; simp [List.getD, h]
  · simp [List.getD, ho, List.getElem?_set_ne (Ne.symm ho)]

/-- The hit test holds exactly for a valid line with the address's tag (R63). -/
theorem State.cacheHit_iff (s : State) (a : Nat) :
    s.cacheHit a = true ↔ (s.line (s.cfg.indexOf a)).valid = true ∧ (s.line (s.cfg.indexOf a)).tag = s.cfg.tagOf a := by
  simp [State.cacheHit]

theorem State.cacheRead_hit (s : State) (a : Nat) (h : s.cacheHit a = true) :
    s.cacheRead a = ((s.line (s.cfg.indexOf a)).word (s.cfg.offsetOf a), true, s) := by
  simp [State.cacheRead, h]

theorem State.cacheRead_miss (s : State) (a : Nat) (h : s.cacheHit a = false) :
    s.cacheRead a = ((s.refillLine a).word (s.cfg.offsetOf a), false,
      { s with lines := s.lines.set (s.cfg.indexOf a) (s.refillLine a) }) := by
  simp [State.cacheRead, h]

/-- The refill line holds the memory words of the address's block. -/
theorem State.refillLine_word (s : State) (a o : Nat) (h : o < s.cfg.blockSize) :
    (s.refillLine a).word o =
      s.memRead ((s.cfg.tagOf a * s.cfg.cacheSize + s.cfg.indexOf a) * s.cfg.blockSize + o) := by
  rw [← block_start]
  exact s.getBlock_getD _ _ h

/-- The value a cache read returns is the memory word, in a coherent state (R65). -/
theorem State.cacheRead_value (s : State) (a : Nat) (hb : 1 ≤ s.cfg.blockSize) (hc : 1 ≤ s.cfg.cacheSize)
    (hf : s.CacheWellFormed) (hco : s.Coherent) : (s.cacheRead a).1 = s.memRead a := by
  have ho := offsetOf_lt s.cfg a hb
  cases hh : s.cacheHit a with
  | true =>
    rw [s.cacheRead_hit a hh]
    obtain ⟨hv, ht⟩ := (s.cacheHit_iff a).mp hh
    have := hco _ (by rw [hf.1]; exact indexOf_lt s.cfg a hc) hv _ ho
    rw [ht, addr_of_parts] at this
    exact this
  | false =>
    rw [s.cacheRead_miss a hh]
    have := s.refillLine_word a _ ho
    rw [addr_of_parts] at this
    exact this

/-- A cache read keeps the cache's form. -/
theorem State.cacheWellFormed_cacheRead (s : State) (a : Nat) (hf : s.CacheWellFormed) :
    (s.cacheRead a).2.2.CacheWellFormed := by
  cases hh : s.cacheHit a with
  | true => rw [s.cacheRead_hit a hh]; exact hf
  | false =>
    rw [s.cacheRead_miss a hh]
    refine ⟨by simp [hf.1], fun l hl => ?_⟩
    rcases List.mem_or_eq_of_mem_set hl with hl | rfl
    · exact hf.2 l hl
    · exact s.getBlock_length _

/-- A cache read keeps coherence: a refill copies memory (R65). -/
theorem State.coherent_cacheRead (s : State) (a : Nat) (hc : 1 ≤ s.cfg.cacheSize) (hf : s.CacheWellFormed)
    (hco : s.Coherent) : (s.cacheRead a).2.2.Coherent := by
  cases hh : s.cacheHit a with
  | true => rw [s.cacheRead_hit a hh]; exact hco
  | false =>
    rw [s.cacheRead_miss a hh]
    have hidx : s.cfg.indexOf a < s.lines.length := by rw [hf.1]; exact indexOf_lt s.cfg a hc
    intro i hi hv o ho
    simp only [List.length_set] at hi
    simp only [s.line_set _ i _ hidx] at hv ⊢
    split
    · next h => rw [h]; exact s.refillLine_word a o ho
    · next h => rw [if_neg h] at hv; exact hco i hi hv o ho

/-- A cache write stores to memory first, always (R60). -/
@[simp] theorem State.cacheWrite_mem (s : State) (a : Nat) (v : Word) :
    (s.cacheWrite a v).2.mem = (s.memWrite a v).mem := by
  unfold State.cacheWrite; dsimp only; split <;> rfl

theorem State.memRead_cacheWrite (s : State) (a b : Nat) (v : Word) :
    (s.cacheWrite a v).2.memRead b = (s.memWrite a v).memRead b :=
  State.memRead_congr _ _ (by simp) (by simp) b

/-- The lines after a cache write: one word of one line on a hit to a backed address, else as before (R60, R61). -/
theorem State.cacheWrite_lines (s : State) (a : Nat) (v : Word) :
    (s.cacheWrite a v).2.lines =
      if s.cacheHit a = true ∧ a < s.cfg.memorySize then
        s.lines.set (s.cfg.indexOf a) ((s.line (s.cfg.indexOf a)).store (s.cfg.offsetOf a) v)
      else s.lines := by
  unfold State.cacheWrite
  by_cases h : s.cacheHit a = true ∧ a < s.cfg.memorySize
  · simp [h]
  · have : (s.cacheHit a && decide (a < s.cfg.memorySize)) = false := by simpa using h
    simp [this, h]

theorem State.cacheWellFormed_cacheWrite (s : State) (a : Nat) (v : Word) (hc : 1 ≤ s.cfg.cacheSize)
    (hf : s.CacheWellFormed) : (s.cacheWrite a v).2.CacheWellFormed := by
  have hidx : s.cfg.indexOf a < s.lines.length := by rw [hf.1]; exact indexOf_lt s.cfg a hc
  unfold State.CacheWellFormed
  rw [s.cacheWrite_lines]
  split
  · refine ⟨by simp [hf.1], fun l hl => ?_⟩
    rcases List.mem_or_eq_of_mem_set hl with hl | rfl
    · simpa using hf.2 l hl
    · simpa [CacheLine.store] using hf.2 _ (s.line_mem _ hidx)
  · simpa using hf

theorem State.memoryWellFormed_cacheWrite (s : State) (a : Nat) (v : Word) (h : s.MemoryWellFormed) :
    (s.cacheWrite a v).2.MemoryWellFormed := by
  simpa [State.MemoryWellFormed] using s.memoryWellFormed_memWrite a v h

/-- A cache write keeps coherence: the one word of memory that changes is covered, if at all, by the one word of the line
that a hit stores (R65). -/
theorem State.coherent_cacheWrite (s : State) (a : Nat) (v : Word) (hb : 1 ≤ s.cfg.blockSize) (hc : 1 ≤ s.cfg.cacheSize)
    (hm : Memory.wf s.mem) (hf : s.CacheWellFormed) (hco : s.Coherent) : (s.cacheWrite a v).2.Coherent := by
  have hidx : s.cfg.indexOf a < s.lines.length := by rw [hf.1]; exact indexOf_lt s.cfg a hc
  have hlen : ((s.cacheWrite a v).2).lines.length = s.lines.length := by
    rw [s.cacheWrite_lines]; split <;> simp
  have hline : ∀ i, (s.cacheWrite a v).2.line i =
      if (s.cacheHit a = true ∧ a < s.cfg.memorySize) ∧ i = s.cfg.indexOf a then
        (s.line (s.cfg.indexOf a)).store (s.cfg.offsetOf a) v
      else s.line i := by
    intro i
    have hset := s.line_set (s.cfg.indexOf a) i ((s.line (s.cfg.indexOf a)).store (s.cfg.offsetOf a) v) hidx
    by_cases hh : s.cacheHit a = true ∧ a < s.cfg.memorySize
    · simpa [State.line, s.cacheWrite_lines, hh] using hset
    · simp [State.line, s.cacheWrite_lines, hh]
  intro i hi hv o ho
  rw [hlen] at hi
  simp only [cacheWrite_cfg] at ho ⊢
  have hic : i < s.cfg.cacheSize := by rw [← hf.1]; exact hi
  rw [s.memRead_cacheWrite, s.memRead_memWrite _ _ _ hm]
  rw [hline i] at hv ⊢
  by_cases hh : (s.cacheHit a = true ∧ a < s.cfg.memorySize) ∧ i = s.cfg.indexOf a
  · rw [if_pos hh] at hv ⊢
    obtain ⟨⟨hit, hlt⟩, rfl⟩ := hh
    obtain ⟨hvalid, htag⟩ := (s.cacheHit_iff a).mp hit
    have hdata := hf.2 _ (s.line_mem _ hidx)
    rw [CacheLine.word_store _ _ _ _ (by rw [hdata]; exact offsetOf_lt s.cfg a hb)]
    have hst : ((s.line (s.cfg.indexOf a)).store (s.cfg.offsetOf a) v).tag = s.cfg.tagOf a := htag
    rw [hst]
    have hcov := hco _ hi hvalid o ho
    rw [htag] at hcov
    have hadr := addr_of_parts s.cfg a
    by_cases hoff : o = s.cfg.offsetOf a
    · rw [if_pos hoff, if_pos ⟨by rw [hoff]; exact hadr, hlt⟩]
    · rw [if_neg hoff, if_neg (by rintro ⟨h, -⟩; omega)]
      exact hcov
  · rw [if_neg hh] at hv ⊢
    rw [if_neg, hco i hi hv o ho]
    rintro ⟨heq, hlt⟩
    obtain ⟨-, hi', ht'⟩ := parts_of_addr s.cfg (s.line i).tag i o hic ho
    rw [heq] at hi' ht'
    exact hh ⟨⟨(s.cacheHit_iff a).mpr ⟨by rw [hi']; exact hv, by rw [hi']; exact ht'.symm⟩, hlt⟩, hi'.symm⟩

end Sys2Proof.Machine
end

