-- ==== Sys2Proof/Laws/Codec.lean ====
section
/-! SUPPORT. The bit fields of a microword, and when a decoded word holds a row (spec/30_encoding.md R81 to R83). -/

namespace Sys2Proof

theorem bitField_lt (w lo k : Nat) : bitField w lo k < 2 ^ k := Nat.mod_lt _ (Nat.two_pow_pos k)

theorem testBit_bitField (w lo k i : Nat) : (bitField w lo k).testBit i = (decide (i < k) && w.testBit (lo + i)) := by
  simp [bitField, Nat.testBit_mod_two_pow, Nat.testBit_shiftRight]

/-- A one-bit field is 1 exactly when its bit is set. -/
theorem bitField_one (w lo : Nat) : bitField w lo 1 = 1 ↔ w.testBit lo = true := by
  rw [bitField, Nat.testBit, Nat.and_comm, Nat.and_one_is_mod]
  simp

/-- Masking a field where it stands. -/
theorem and_field (w lo k : Nat) : w &&& ((2 ^ k - 1) <<< lo) = bitField w lo k <<< lo := by
  apply Nat.eq_of_testBit_eq
  intro i
  simp only [Nat.testBit_and, Nat.testBit_shiftLeft, Nat.testBit_two_pow_sub_one, testBit_bitField]
  by_cases h : lo ≤ i
  · simp [h, Bool.and_comm]
  · simp [h]

/-- A word has a value in a field, under the field's mask, exactly when the field is that value. -/
theorem and_field_eq_iff (w lo k v : Nat) : w &&& ((2 ^ k - 1) <<< lo) = v <<< lo ↔ bitField w lo k = v := by
  rw [and_field]
  constructor
  · intro h
    have := congrArg (· >>> lo) h
    simpa using this
  · rintro rfl; rfl

/-! ### Field masks as the opcode table writes them -/

theorem and_alu (w v : Nat) : w &&& 0x030000000 = v <<< 28 ↔ bitField w 28 2 = v := and_field_eq_iff w 28 2 v
theorem and_sh (w v : Nat) : w &&& 0x00C000000 = v <<< 26 ↔ bitField w 26 2 = v := and_field_eq_iff w 26 2 v
theorem and_amux (w v : Nat) : w &&& 0x100000000 = v <<< 32 ↔ bitField w 32 1 = v := and_field_eq_iff w 32 1 v
theorem and_cond (w v : Nat) : w &&& 0x0C0000000 = v <<< 30 ↔ bitField w 30 2 = v := and_field_eq_iff w 30 2 v
theorem and_mbr (w v : Nat) : w &&& 0x002000000 = v <<< 25 ↔ bitField w 25 1 = v := and_field_eq_iff w 25 1 v
theorem and_mar (w v : Nat) : w &&& 0x001000000 = v <<< 24 ↔ bitField w 24 1 = v := and_field_eq_iff w 24 1 v
theorem and_rd (w v : Nat) : w &&& 0x000800000 = v <<< 23 ↔ bitField w 23 1 = v := and_field_eq_iff w 23 1 v
theorem and_wr (w v : Nat) : w &&& 0x000400000 = v <<< 22 ↔ bitField w 22 1 = v := and_field_eq_iff w 22 1 v
theorem and_enc (w v : Nat) : w &&& 0x000200000 = v <<< 21 ↔ bitField w 21 1 = v := and_field_eq_iff w 21 1 v
theorem and_c (w v : Nat) : w &&& 0x0001E0000 = v <<< 17 ↔ bitField w 17 4 = v := and_field_eq_iff w 17 4 v
theorem and_addr (w v : Nat) : w &&& 0x0000001FF = v ↔ bitField w 0 9 = v := and_field_eq_iff w 0 9 v
theorem and_word (w v : Nat) : w &&& 0x1FFFFFFFF = v ↔ bitField w 0 33 = v := and_field_eq_iff w 0 33 v

/-! ### When a microinstruction holds a row -/

theorem mem_rows (f : Micro) (i : Instr) :
    i ∈ f.rows ↔ i = f.amuxRow ∨ i = f.aluRow ∨ i = f.shRow ∨ (f.mar = 1 ∧ i = .marw) ∨ (f.mbr = 1 ∧ i = .mbrw) ∨
      (f.enc = 1 ∧ i = .enc (BitVec.ofNat 4 f.c)) ∨ (f.rd = 1 ∧ i = .rd) ∨ (f.wr = 1 ∧ i = .wr) ∨ i = f.condRow ∨
      (f = {} ∧ i = .nopAllZero) := by
  have single : ∀ (p : Prop) [Decidable p] (a : Instr), i ∈ (if p then [a] else []) ↔ p ∧ i = a := by
    intro p _ a; split <;> simp [*]
  simp only [Micro.rows, Micro.aluRows, Micro.writebackRows, Micro.enableRows, Micro.wholeWordRows, List.mem_append,
    List.mem_cons, List.not_mem_nil, or_false, single]
  tauto

theorem eq_aluRow_iff (f : Micro) (i : Instr) :
    i = f.aluRow ↔ (i = .aluAdd ∧ f.alu = 0) ∨ (i = .aluAnd ∧ f.alu = 1) ∨ (i = .aluPass ∧ f.alu = 2) ∨
      (i = .aluNot ∧ f.alu ≠ 0 ∧ f.alu ≠ 1 ∧ f.alu ≠ 2) := by
  unfold Micro.aluRow; split_ifs <;> simp_all

theorem eq_shRow_iff (f : Micro) (i : Instr) :
    i = f.shRow ↔ (i = .shNone ∧ f.sh = 0) ∨ (i = .shSra1 ∧ f.sh = 1) ∨ (i = .shSll8 ∧ f.sh = 2) ∨
      (i = .shReserved3 ∧ f.sh ≠ 0 ∧ f.sh ≠ 1 ∧ f.sh ≠ 2) := by
  unfold Micro.shRow; split_ifs <;> simp_all

theorem eq_amuxRow_iff (f : Micro) (i : Instr) :
    i = f.amuxRow ↔ (i = .amuxMbr ∧ f.amux = 1) ∨ (i = .amuxA ∧ f.amux ≠ 1) := by
  unfold Micro.amuxRow; split_ifs <;> simp_all

theorem eq_condRow_iff (f : Micro) (i : Instr) :
    i = f.condRow ↔ (i = .condNo (BitVec.ofNat 9 f.addr) ∧ f.cond = 0) ∨
      (i = .condJamn (BitVec.ofNat 9 f.addr) ∧ f.cond = 1) ∨ (i = .condJamz (BitVec.ofNat 9 f.addr) ∧ f.cond = 2) ∨
      (i = .condDecode ∧ f.cond ≠ 0 ∧ f.cond ≠ 1 ∧ f.cond ≠ 2) := by
  unfold Micro.condRow; split_ifs <;> simp_all

/-- The value of a two-bit field is one of four. -/
theorem two_bits (w lo : Nat) : bitField w lo 2 = 0 ∨ bitField w lo 2 = 1 ∨ bitField w lo 2 = 2 ∨ bitField w lo 2 = 3 := by
  have := bitField_lt w lo 2
  omega

theorem one_bit (w lo : Nat) : bitField w lo 1 = 0 ∨ bitField w lo 1 = 1 := by
  have := bitField_lt w lo 1
  omega

theorem bitField_eq_zero (w lo k : Nat) : bitField w lo k = 0 ↔ ∀ i, i < k → w.testBit (lo + i) = false := by
  constructor
  · intro h i hi
    have := testBit_bitField w lo k i
    simpa [h, hi] using this.symm
  · intro h
    apply Nat.eq_of_testBit_eq
    intro i
    rw [testBit_bitField, Nat.zero_testBit]
    by_cases hi : i < k
    · simp [h i hi]
    · simp [hi]

/-- A field is 0 exactly when its lower and its upper part are. -/
theorem bitField_add_eq_zero (w lo j k : Nat) :
    bitField w lo (j + k) = 0 ↔ bitField w lo j = 0 ∧ bitField w (lo + j) k = 0 := by
  simp only [bitField_eq_zero]
  constructor
  · exact fun h => ⟨fun i hi => h i (by omega), fun i hi => by rw [Nat.add_assoc]; exact h (j + i) (by omega)⟩
  · rintro ⟨hl, hu⟩ i hi
    by_cases hij : i < j
    · exact hl i hij
    · have := hu (i - j) (by omega)
      rwa [show lo + j + (i - j) = lo + i by omega] at this

/-- A decoded word is the all-zero microinstruction exactly when its 33 bits are 0 (R86). -/
theorem decode_eq_zero (w : Nat) : decode w = {} ↔ bitField w 0 33 = 0 := by
  rw [show (33 : Nat) = 9 + (4 + (4 + (4 + (1 + (1 + (1 + (1 + (1 + (2 + (2 + (2 + 1))))))))))) from rfl]
  iterate 12 rw [bitField_add_eq_zero]
  simp only [decode, Micro.mk.injEq, Nat.reduceAdd]
  tauto

end Sys2Proof
end

