-- ==== Sys2Proof/Laws/PerInstr.lean ====
section
/-! SUPPORT. For every instruction: a decoded word holds the row exactly when the opcode table's mask and match say so, with the
operand standing in its field (spec/30_encoding.md, introduction, R80, R81). -/

namespace Sys2Proof.Laws.RowMatch

/-- The rows of a decoded word are the rows of the opcode table that match the word. -/
def Statement (i : Instr) : Prop := ∀ w : Nat, i ∈ (decode w).rows ↔ i.matchesWord w = true

/-- What matching a row says: its field has its value, and its operand field the operand. -/
theorem matchesWord_iff (i : Instr) (w : Nat) :
    i.matchesWord w = true ↔ w &&& i.mask = i.pattern ∧ w &&& i.operandMask = i.operandBits := by
  simp [Instr.matchesWord]

theorem aluAdd : Statement .aluAdd := by
  intro w
  have row : .aluAdd ∈ (decode w).rows ↔ bitField w 28 2 = 0 := by
    have := two_bits w 28
    simp [mem_rows, eq_aluRow_iff, eq_shRow_iff, eq_amuxRow_iff, eq_condRow_iff, decode]
  rw [row, matchesWord_iff, ← and_alu w 0]
  simp [Instr.mask, Instr.pattern, Instr.operandMask, Instr.operandBits]

theorem aluAnd : Statement .aluAnd := by
  intro w
  have row : .aluAnd ∈ (decode w).rows ↔ bitField w 28 2 = 1 := by
    have := two_bits w 28
    simp [mem_rows, eq_aluRow_iff, eq_shRow_iff, eq_amuxRow_iff, eq_condRow_iff, decode]
  rw [row, matchesWord_iff, ← and_alu w 1]
  simp [Instr.mask, Instr.pattern, Instr.operandMask, Instr.operandBits]

theorem aluPass : Statement .aluPass := by
  intro w
  have row : .aluPass ∈ (decode w).rows ↔ bitField w 28 2 = 2 := by
    have := two_bits w 28
    simp [mem_rows, eq_aluRow_iff, eq_shRow_iff, eq_amuxRow_iff, eq_condRow_iff, decode]
  rw [row, matchesWord_iff, ← and_alu w 2]
  simp [Instr.mask, Instr.pattern, Instr.operandMask, Instr.operandBits]

theorem aluNot : Statement .aluNot := by
  intro w
  have row : .aluNot ∈ (decode w).rows ↔ bitField w 28 2 = 3 := by
    have := two_bits w 28
    simp [mem_rows, eq_aluRow_iff, eq_shRow_iff, eq_amuxRow_iff, eq_condRow_iff, decode]; omega
  rw [row, matchesWord_iff, ← and_alu w 3]
  simp [Instr.mask, Instr.pattern, Instr.operandMask, Instr.operandBits]

theorem shNone : Statement .shNone := by
  intro w
  have row : .shNone ∈ (decode w).rows ↔ bitField w 26 2 = 0 := by
    have := two_bits w 26
    simp [mem_rows, eq_aluRow_iff, eq_shRow_iff, eq_amuxRow_iff, eq_condRow_iff, decode]
  rw [row, matchesWord_iff, ← and_sh w 0]
  simp [Instr.mask, Instr.pattern, Instr.operandMask, Instr.operandBits]

theorem shSra1 : Statement .shSra1 := by
  intro w
  have row : .shSra1 ∈ (decode w).rows ↔ bitField w 26 2 = 1 := by
    have := two_bits w 26
    simp [mem_rows, eq_aluRow_iff, eq_shRow_iff, eq_amuxRow_iff, eq_condRow_iff, decode]
  rw [row, matchesWord_iff, ← and_sh w 1]
  simp [Instr.mask, Instr.pattern, Instr.operandMask, Instr.operandBits]

theorem shSll8 : Statement .shSll8 := by
  intro w
  have row : .shSll8 ∈ (decode w).rows ↔ bitField w 26 2 = 2 := by
    have := two_bits w 26
    simp [mem_rows, eq_aluRow_iff, eq_shRow_iff, eq_amuxRow_iff, eq_condRow_iff, decode]
  rw [row, matchesWord_iff, ← and_sh w 2]
  simp [Instr.mask, Instr.pattern, Instr.operandMask, Instr.operandBits]

theorem shReserved3 : Statement .shReserved3 := by
  intro w
  have row : .shReserved3 ∈ (decode w).rows ↔ bitField w 26 2 = 3 := by
    have := two_bits w 26
    simp [mem_rows, eq_aluRow_iff, eq_shRow_iff, eq_amuxRow_iff, eq_condRow_iff, decode]; omega
  rw [row, matchesWord_iff, ← and_sh w 3]
  simp [Instr.mask, Instr.pattern, Instr.operandMask, Instr.operandBits]

theorem amuxA : Statement .amuxA := by
  intro w
  have row : .amuxA ∈ (decode w).rows ↔ bitField w 32 1 = 0 := by
    have := one_bit w 32
    simp [mem_rows, eq_aluRow_iff, eq_shRow_iff, eq_amuxRow_iff, eq_condRow_iff, decode]; omega
  rw [row, matchesWord_iff, ← and_amux w 0]
  simp [Instr.mask, Instr.pattern, Instr.operandMask, Instr.operandBits]

theorem amuxMbr : Statement .amuxMbr := by
  intro w
  have row : .amuxMbr ∈ (decode w).rows ↔ bitField w 32 1 = 1 := by
    simp [mem_rows, eq_aluRow_iff, eq_shRow_iff, eq_amuxRow_iff, eq_condRow_iff, decode]
  rw [row, matchesWord_iff, ← and_amux w 1]
  simp [Instr.mask, Instr.pattern, Instr.operandMask, Instr.operandBits]

theorem marw : Statement .marw := by
  intro w
  have row : .marw ∈ (decode w).rows ↔ bitField w 24 1 = 1 := by
    simp [mem_rows, eq_aluRow_iff, eq_shRow_iff, eq_amuxRow_iff, eq_condRow_iff, decode]
  rw [row, matchesWord_iff, ← and_mar w 1]
  simp [Instr.mask, Instr.pattern, Instr.operandMask, Instr.operandBits]

theorem mbrw : Statement .mbrw := by
  intro w
  have row : .mbrw ∈ (decode w).rows ↔ bitField w 25 1 = 1 := by
    simp [mem_rows, eq_aluRow_iff, eq_shRow_iff, eq_amuxRow_iff, eq_condRow_iff, decode]
  rw [row, matchesWord_iff, ← and_mbr w 1]
  simp [Instr.mask, Instr.pattern, Instr.operandMask, Instr.operandBits]

theorem rd : Statement .rd := by
  intro w
  have row : .rd ∈ (decode w).rows ↔ bitField w 23 1 = 1 := by
    simp [mem_rows, eq_aluRow_iff, eq_shRow_iff, eq_amuxRow_iff, eq_condRow_iff, decode]
  rw [row, matchesWord_iff, ← and_rd w 1]
  simp [Instr.mask, Instr.pattern, Instr.operandMask, Instr.operandBits]

theorem wr : Statement .wr := by
  intro w
  have row : .wr ∈ (decode w).rows ↔ bitField w 22 1 = 1 := by
    simp [mem_rows, eq_aluRow_iff, eq_shRow_iff, eq_amuxRow_iff, eq_condRow_iff, decode]
  rw [row, matchesWord_iff, ← and_wr w 1]
  simp [Instr.mask, Instr.pattern, Instr.operandMask, Instr.operandBits]

theorem enc (c : RegIdx) : Statement (.enc c) := by
  intro w
  have operand : c = BitVec.ofNat 4 (bitField w 17 4) ↔ bitField w 17 4 = c.toNat := by
    have := bitField_lt w 17 4
    rw [← BitVec.toNat_inj, BitVec.toNat_ofNat, Nat.mod_eq_of_lt this, eq_comm]
  have row : .enc c ∈ (decode w).rows ↔ bitField w 21 1 = 1 ∧ bitField w 17 4 = c.toNat := by
    simp [mem_rows, eq_aluRow_iff, eq_shRow_iff, eq_amuxRow_iff, eq_condRow_iff, decode, operand]
  rw [row, matchesWord_iff, ← and_enc w 1, ← and_c w c.toNat]
  simp [Instr.mask, Instr.pattern, Instr.operandMask, Instr.operandBits]

/-- An address operand is the value of the word's ADDR field. -/
theorem addr_operand (w : Nat) (a : MicroAddr) :
    a = BitVec.ofNat 9 (bitField w 0 9) ↔ bitField w 0 9 = a.toNat := by
  have := bitField_lt w 0 9
  rw [← BitVec.toNat_inj, BitVec.toNat_ofNat, Nat.mod_eq_of_lt this, eq_comm]

theorem condNo (a : MicroAddr) : Statement (.condNo a) := by
  intro w
  have row : .condNo a ∈ (decode w).rows ↔ bitField w 30 2 = 0 ∧ bitField w 0 9 = a.toNat := by
    simp [mem_rows, eq_aluRow_iff, eq_shRow_iff, eq_amuxRow_iff, eq_condRow_iff, decode, addr_operand, and_comm]
  rw [row, matchesWord_iff, ← and_cond w 0, ← and_addr w a.toNat]
  simp [Instr.mask, Instr.pattern, Instr.operandMask, Instr.operandBits]

theorem condJamn (a : MicroAddr) : Statement (.condJamn a) := by
  intro w
  have row : .condJamn a ∈ (decode w).rows ↔ bitField w 30 2 = 1 ∧ bitField w 0 9 = a.toNat := by
    simp [mem_rows, eq_aluRow_iff, eq_shRow_iff, eq_amuxRow_iff, eq_condRow_iff, decode, addr_operand, and_comm]
  rw [row, matchesWord_iff, ← and_cond w 1, ← and_addr w a.toNat]
  simp [Instr.mask, Instr.pattern, Instr.operandMask, Instr.operandBits]

theorem condJamz (a : MicroAddr) : Statement (.condJamz a) := by
  intro w
  have row : .condJamz a ∈ (decode w).rows ↔ bitField w 30 2 = 2 ∧ bitField w 0 9 = a.toNat := by
    simp [mem_rows, eq_aluRow_iff, eq_shRow_iff, eq_amuxRow_iff, eq_condRow_iff, decode, addr_operand, and_comm]
  rw [row, matchesWord_iff, ← and_cond w 2, ← and_addr w a.toNat]
  simp [Instr.mask, Instr.pattern, Instr.operandMask, Instr.operandBits]

theorem condDecode : Statement .condDecode := by
  intro w
  have row : .condDecode ∈ (decode w).rows ↔ bitField w 30 2 = 3 := by
    have := two_bits w 30
    simp [mem_rows, eq_aluRow_iff, eq_shRow_iff, eq_amuxRow_iff, eq_condRow_iff, decode]; omega
  rw [row, matchesWord_iff, ← and_cond w 3]
  simp [Instr.mask, Instr.pattern, Instr.operandMask, Instr.operandBits]

theorem nopAllZero : Statement .nopAllZero := by
  intro w
  have row : .nopAllZero ∈ (decode w).rows ↔ bitField w 0 33 = 0 := by
    rw [← decode_eq_zero]
    simp [mem_rows, eq_aluRow_iff, eq_shRow_iff, eq_amuxRow_iff, eq_condRow_iff]
  rw [row, matchesWord_iff, ← and_word w 0]
  simp [Instr.mask, Instr.pattern, Instr.operandMask, Instr.operandBits]

end Sys2Proof.Laws.RowMatch
end

