-- ==== Sys2Proof/Laws/Step.lean ====
section
/-! SUPPORT. What a row's action, a phase and a step can do, said once: later proofs cite these instead of unfolding. -/

namespace Sys2Proof.Machine

/-! ### Rows -/

@[simp] theorem exec_aluAdd (s : State) : exec .aluAdd s = .next (s.aluStage (aluAdd s.latchA s.latchB)) := rfl
@[simp] theorem exec_aluAnd (s : State) : exec .aluAnd s = .next (s.aluStage (aluAnd s.latchA s.latchB)) := rfl
@[simp] theorem exec_aluPass (s : State) : exec .aluPass s = .next (s.aluStage (aluPass s.latchA)) := rfl
@[simp] theorem exec_aluNot (s : State) : exec .aluNot s = .next (s.aluStage (aluNot s.latchA)) := rfl
@[simp] theorem exec_shNone (s : State) : exec .shNone s = .next (s.finishAlu (shNone s.aluResult)) := rfl
@[simp] theorem exec_shSra1 (s : State) : exec .shSra1 s = .next (s.finishAlu (shSra1 s.aluResult)) := rfl
@[simp] theorem exec_shSll8 (s : State) : exec .shSll8 s = .next (s.finishAlu (shSll8 s.aluResult)) := rfl
@[simp] theorem exec_shReserved3 (s : State) : exec .shReserved3 s =
    .next (if s.cfg.acceptShift3 then s.finishAlu (Config.shift3 s.aluResult) else s.refuse .reservedShift) := rfl
@[simp] theorem exec_amuxA (s : State) : exec .amuxA s = .next s := rfl
@[simp] theorem exec_amuxMbr (s : State) : exec .amuxMbr s = .next s.selectMbr := rfl
@[simp] theorem exec_marw (s : State) : exec .marw s = .next (s.writeReg Slot.mar s.aluResult) := rfl
@[simp] theorem exec_mbrw (s : State) : exec .mbrw s = .next (s.writeReg Slot.mbr s.aluResult) := rfl
@[simp] theorem exec_enc (c : RegIdx) (s : State) : exec (.enc c) s = .next (s.writeReg c s.aluResult) := rfl
@[simp] theorem exec_rd (s : State) : exec .rd s =
    .next ((s.cacheRead s.regs.mar.toNat).2.2.writeReg Slot.mbr (s.cacheRead s.regs.mar.toNat).1) := rfl
@[simp] theorem exec_wr (s : State) : exec .wr s = .next (s.cacheWrite s.regs.mar.toNat s.regs.mbr).2 := rfl
@[simp] theorem exec_condNo (a : MicroAddr) (s : State) : exec (.condNo a) s = .next (s.goTo a) := rfl
@[simp] theorem exec_condJamn (a : MicroAddr) (s : State) : exec (.condJamn a) s = .next (s.goTo (jamTarget a s.n)) := rfl
@[simp] theorem exec_condJamz (a : MicroAddr) (s : State) : exec (.condJamz a) s = .next (s.goTo (jamTarget a s.z)) := rfl

theorem exec_condDecode_mapped (s : State) (a : MicroAddr) (h : s.cfg.mapped (opkey s.regs.ir) = some a) :
    exec .condDecode s = .next (s.goTo a) := by
  simp [exec, execCondDecode, h]

theorem exec_condDecode_unmapped (s : State) (h : s.cfg.mapped (opkey s.regs.ir) = none) :
    exec .condDecode s = .next ((s.raise (.unmappedOpcode s.regs.ir (opkey s.regs.ir))).goTo 0) := by
  simp [exec, execCondDecode, h]

theorem exec_nopAllZero (s : State) : exec .nopAllZero s =
    .next { s with latchA := 0, latchB := 0, aluResult := 0, n := false, z := true, mpc := 0 } := by
  have hz : s.readReg (BitVec.ofNat 4 0) = 0 := rfl
  simp only [exec, execNopAllZero, State.decodeRead, State.finishAlu, hz, Host.Outcome.next.injEq, State.mk.injEq,
    true_and, and_true]
  decide

/-- Every row's action answers a next state, in every state. -/
theorem exec_next (i : Instr) (s : State) : ∃ t, exec i s = .next t := by
  cases i
  case condDecode =>
    cases h : s.cfg.mapped (opkey s.regs.ir) with
    | some a => exact ⟨_, exec_condDecode_mapped s a h⟩
    | none => exact ⟨_, exec_condDecode_unmapped s h⟩
  all_goals exact ⟨_, rfl⟩

theorem execAll_next (is : List Instr) (s : State) : ∃ t, execAll is s = .next t := by
  induction is generalizing s with
  | nil => exact ⟨s, rfl⟩
  | cons i is ih =>
    obtain ⟨u, hu⟩ := exec_next i s
    obtain ⟨t, ht⟩ := ih u
    exact ⟨t, by simp [execAll, hu, ht]⟩

/-- The rows that phase 3 runs. -/
def Instr.InAlu (i : Instr) : Prop :=
  i = .amuxA ∨ i = .amuxMbr ∨ i = .aluAdd ∨ i = .aluAnd ∨ i = .aluPass ∨ i = .aluNot ∨ i = .shNone ∨ i = .shSra1 ∨
    i = .shSll8 ∨ i = .shReserved3

/-- The rows that phase 4 runs before the next address. -/
def Instr.IsEnable (i : Instr) : Prop := i = .marw ∨ i = .mbrw ∨ (∃ c, i = .enc c) ∨ i = .rd ∨ i = .wr

/-- The rows of the next address. -/
def Instr.IsCond (i : Instr) : Prop :=
  (∃ a, i = .condNo a) ∨ (∃ a, i = .condJamn a) ∨ (∃ a, i = .condJamz a) ∨ i = .condDecode

theorem Instr.inAlu_of_mem (f : Micro) (i : Instr) (h : i ∈ f.aluRows) : Instr.InAlu i := by
  simp only [Micro.aluRows, List.mem_cons, List.not_mem_nil, or_false] at h
  rcases h with rfl | rfl | rfl
  · unfold Micro.amuxRow; split <;> simp [Instr.InAlu]
  · unfold Micro.aluRow; split_ifs <;> simp [Instr.InAlu]
  · unfold Micro.shRow; split_ifs <;> simp [Instr.InAlu]

theorem Instr.isEnable_of_mem (f : Micro) (i : Instr) (h : i ∈ f.enableRows) : Instr.IsEnable i := by
  have single : ∀ (p : Prop) [Decidable p] (a : Instr), i ∈ (if p then [a] else []) → i = a := by
    intro p _ a; split <;> simp
  simp only [Micro.enableRows, List.mem_append] at h
  rcases h with h | h | h | h | h <;> have h := single _ _ h <;> subst h <;> simp [Instr.IsEnable]

theorem Instr.isCond_condRow (f : Micro) : Instr.IsCond f.condRow := by
  unfold Micro.condRow; split_ifs <;> simp [Instr.IsCond]

/-- A phase 3 row writes the A latch, the result, the flags and the mark, and nothing else. -/
theorem exec_alu_frame (i : Instr) (s t : State) (hi : Instr.InAlu i) (h : exec i s = .next t) :
    t = { s with latchA := t.latchA, aluResult := t.aluResult, n := t.n, z := t.z, refused := t.refused } := by
  rcases hi with rfl | rfl | rfl | rfl | rfl | rfl | rfl | rfl | rfl | rfl <;>
    simp only [exec_amuxA, exec_amuxMbr, exec_aluAdd, exec_aluAnd, exec_aluPass, exec_aluNot, exec_shNone, exec_shSra1,
      exec_shSll8, exec_shReserved3, Host.Outcome.next.injEq] at h <;> subst h
  all_goals first | rfl | (split <;> rfl)

/-- An enable row writes registers, memory and cache lines, and nothing else. -/
theorem exec_enable_frame (i : Instr) (s t : State) (hi : Instr.IsEnable i) (h : exec i s = .next t) :
    t = { s with regs := t.regs, mem := t.mem, lines := t.lines } := by
  rcases hi with rfl | rfl | ⟨c, rfl⟩ | rfl | rfl <;>
    simp only [exec_marw, exec_mbrw, exec_enc, exec_rd, exec_wr, Host.Outcome.next.injEq] at h <;> subst h
  · rfl
  · rfl
  · rfl
  · unfold State.cacheRead; split <;> rfl
  · unfold State.cacheWrite State.memWrite; dsimp only; split <;> split <;> rfl

/-- A COND row writes MPC, and one event at most to the fault log, and nothing else. -/
theorem exec_cond_frame (i : Instr) (s t : State) (hi : Instr.IsCond i) (h : exec i s = .next t) :
    ∃ e, e.length ≤ 1 ∧ t = { s with mpc := t.mpc, faults := s.faults ++ e } := by
  rcases hi with ⟨a, rfl⟩ | ⟨a, rfl⟩ | ⟨a, rfl⟩ | rfl
  · simp only [exec_condNo, Host.Outcome.next.injEq] at h; subst h; exact ⟨[], by simp, by simp [State.goTo]⟩
  · simp only [exec_condJamn, Host.Outcome.next.injEq] at h; subst h; exact ⟨[], by simp, by simp [State.goTo]⟩
  · simp only [exec_condJamz, Host.Outcome.next.injEq] at h; subst h; exact ⟨[], by simp, by simp [State.goTo]⟩
  · cases hm : s.cfg.mapped (opkey s.regs.ir) with
    | some a =>
      rw [exec_condDecode_mapped s a hm, Host.Outcome.next.injEq] at h
      subst h; exact ⟨[], by simp, by simp [State.goTo]⟩
    | none =>
      rw [exec_condDecode_unmapped s hm, Host.Outcome.next.injEq] at h
      subst h; exact ⟨[_], by simp, rfl⟩

/-- A run of phase 3 rows keeps their frame. -/
theorem execAll_alu_frame (is : List Instr) (s t : State) (hi : ∀ i ∈ is, Instr.InAlu i)
    (h : execAll is s = .next t) :
    t = { s with latchA := t.latchA, aluResult := t.aluResult, n := t.n, z := t.z, refused := t.refused } := by
  induction is generalizing s with
  | nil => simp only [execAll, Host.Outcome.next.injEq] at h; subst h; rfl
  | cons i is ih =>
    obtain ⟨u, hu, h⟩ := Result.andThen_eq_next _ _ _ h
    have h1 := exec_alu_frame i s u (hi i (by simp)) hu
    have h2 := ih u (fun j hj => hi j (by simp [hj])) h
    rw [h1] at h2
    exact h2

/-- A run of enable rows keeps their frame. -/
theorem execAll_enable_frame (is : List Instr) (s t : State) (hi : ∀ i ∈ is, Instr.IsEnable i)
    (h : execAll is s = .next t) : t = { s with regs := t.regs, mem := t.mem, lines := t.lines } := by
  induction is generalizing s with
  | nil => simp only [execAll, Host.Outcome.next.injEq] at h; subst h; rfl
  | cons i is ih =>
    obtain ⟨u, hu, h⟩ := Result.andThen_eq_next _ _ _ h
    have h1 := exec_enable_frame i s u (hi i (by simp)) hu
    have h2 := ih u (fun j hj => hi j (by simp [hj])) h
    rw [h1] at h2
    exact h2

/-- What one enable row does to a register: it leaves it, or stores aluResult in the slot it names, or (RD) loads MBR. -/
theorem readReg_exec_enable (i : Instr) (s t : State) (j : RegIdx) (hi : Instr.IsEnable i) (h : exec i s = .next t) :
    t.readReg j = s.readReg j ∨ Slot.stores j = true ∧
      ((i = .marw ∧ j = 5 ∨ i = .mbrw ∧ j = 6 ∨ i = .enc j) ∧ t.readReg j = s.aluResult ∨ i = .rd ∧ j = 6) := by
  rcases hi with rfl | rfl | ⟨c, rfl⟩ | rfl | rfl <;>
    simp only [exec_marw, exec_mbrw, exec_enc, exec_rd, exec_wr, Host.Outcome.next.injEq] at h <;> subst h
  · rw [State.readReg_writeReg]
    split
    · next hj => obtain ⟨rfl, -⟩ := hj; exact .inr ⟨rfl, .inl ⟨.inl ⟨rfl, rfl⟩, rfl⟩⟩
    · exact .inl rfl
  · rw [State.readReg_writeReg]
    split
    · next hj => obtain ⟨rfl, -⟩ := hj; exact .inr ⟨rfl, .inl ⟨.inr (.inl ⟨rfl, rfl⟩), rfl⟩⟩
    · exact .inl rfl
  · rw [State.readReg_writeReg]
    split
    · next hj => obtain ⟨rfl, hs⟩ := hj; exact .inr ⟨hs, .inl ⟨.inr (.inr rfl), rfl⟩⟩
    · exact .inl rfl
  · rw [State.readReg_writeReg]
    split
    · next hj => obtain ⟨rfl, -⟩ := hj; exact .inr ⟨rfl, .inr ⟨rfl, rfl⟩⟩
    · left; simp [State.readReg]
  · left; simp [State.readReg]

/-- What a run of enable rows does to a register. -/
theorem readReg_execAll_enable (is : List Instr) (s t : State) (j : RegIdx) (hi : ∀ i ∈ is, Instr.IsEnable i)
    (h : execAll is s = .next t) :
    t.readReg j = s.readReg j ∨ Slot.stores j = true ∧
      ((.marw ∈ is ∧ j = 5 ∨ .mbrw ∈ is ∧ j = 6 ∨ .enc j ∈ is) ∧ t.readReg j = s.aluResult ∨ .rd ∈ is ∧ j = 6) := by
  induction is generalizing s with
  | nil => simp only [execAll, Host.Outcome.next.injEq] at h; subst h; exact .inl rfl
  | cons i is ih =>
    obtain ⟨u, hu, h⟩ := Result.andThen_eq_next _ _ _ h
    have ha : u.aluResult = s.aluResult := by rw [exec_enable_frame i s u (hi i (by simp)) hu]
    have h1 := readReg_exec_enable i s u j (hi i (by simp)) hu
    have h2 := ih u (fun k hk => hi k (by simp [hk])) h
    rw [ha] at h2
    simp only [List.mem_cons]
    rcases h2 with h2 | ⟨hs, h2⟩
    · rw [h2]; simp only [@eq_comm _ _ i]; tauto
    · tauto

/-- WRITEBACK_NEXT as its enable rows and then its COND row. -/
theorem State.writebackNext_cases (s t : State) (f : Micro) (h : s.writebackNext f = .next t) :
    ∃ u, execAll f.enableRows s = .next u ∧ exec f.condRow u = .next t := by
  unfold State.writebackNext Micro.writebackRows at h
  rw [execAll_append] at h
  obtain ⟨u, hu, h⟩ := Result.andThen_eq_next _ _ _ h
  obtain ⟨v, hv, h⟩ := Result.andThen_eq_next _ _ _ h
  simp only [execAll, Host.Outcome.next.injEq] at h
  exact ⟨u, hu, h ▸ hv⟩

/-! ### One step -/

/-- A phase always answers a next state. -/
theorem State.runPhase_next (s : State) : ∃ t, s.runPhase = .next t := by
  unfold State.runPhase
  split
  · exact ⟨_, rfl⟩
  · exact ⟨_, rfl⟩
  · obtain ⟨t, ht⟩ := execAll_next s.micro.aluRows s
    exact ⟨_, by rw [State.aluExec, ht, Result.andThen_next]⟩
  · exact execAll_next _ s

theorem step_of_refused (s : State) (h : s.refused ≠ none) : step s = .next s := by
  unfold step State.phaseStep
  rw [if_pos (by simpa [Option.isSome_iff_ne_none] using h)]

theorem step_of_runPhase (s t : State) (hr : s.refused = none) (h : s.runPhase = .next t) :
    step s = .next t.endStep := by
  unfold step State.phaseStep
  simp [hr, h]

/-- What one step can do: nothing in a refused state; else exactly one of the four phases, and the counter. -/
theorem step_cases (s t : State) (h : step s = .next t) :
    (s.refused ≠ none ∧ t = s) ∨
    (s.refused = none ∧ s.phase = .fetchMicro ∧ t = s.fetchMicro.endStep) ∨
    (s.refused = none ∧ s.phase = .decodeRead ∧ t = (s.decodeRead s.micro).endStep) ∨
    (s.refused = none ∧ s.phase = .aluExec ∧ ∃ u, execAll s.micro.aluRows s = .next u ∧
      t = State.endStep (if u.refused.isSome then { s with refused := u.refused } else u)) ∨
    (s.refused = none ∧ s.phase = .writebackNext ∧ ∃ u v, execAll s.micro.enableRows s = .next u ∧
      exec s.micro.condRow u = .next v ∧ t = v.endStep) := by
  by_cases hr : s.refused = none
  · obtain ⟨w, hw⟩ := s.runPhase_next
    have ht := step_of_runPhase s w hr hw
    rw [h, Host.Outcome.next.injEq] at ht
    subst ht
    cases hp : s.phase with
    | fetchMicro =>
      simp only [State.runPhase, hp, Host.Outcome.next.injEq] at hw
      exact .inr (.inl ⟨hr, rfl, by rw [hw]⟩)
    | decodeRead =>
      simp only [State.runPhase, hp, Host.Outcome.next.injEq] at hw
      exact .inr (.inr (.inl ⟨hr, rfl, by rw [hw]⟩))
    | aluExec =>
      simp only [State.runPhase, hp, State.aluExec] at hw
      obtain ⟨u, hu, hw⟩ := Result.andThen_eq_next _ _ _ hw
      rw [Host.Outcome.next.injEq] at hw
      exact .inr (.inr (.inr (.inl ⟨hr, rfl, u, hu, by rw [hw]⟩)))
    | writebackNext =>
      simp only [State.runPhase, hp] at hw
      obtain ⟨u, hu, hv⟩ := State.writebackNext_cases s w _ hw
      exact .inr (.inr (.inr (.inr ⟨hr, rfl, u, w, hu, hv, rfl⟩)))
  · rw [step_of_refused s hr, Host.Outcome.next.injEq] at h
    exact .inl ⟨hr, h.symm⟩

/-- A step always answers a next state. -/
theorem step_next (s : State) : ∃ t, step s = .next t := by
  by_cases hr : s.refused = none
  · obtain ⟨t, ht⟩ := s.runPhase_next
    exact ⟨_, step_of_runPhase s t hr ht⟩
  · exact ⟨s, step_of_refused s hr⟩

/-! ### Several steps -/

theorem run_succ (k : Nat) (s t : State) (h : step s = .next t) : run (k + 1) s = run k t := by
  simp [run, h]

theorem run_add (j k : Nat) (s t : State) (h : run j s = .next t) : run (j + k) s = run k t := by
  induction j generalizing s with
  | zero =>
    simp only [run, Host.Outcome.next.injEq] at h
    rw [h, Nat.zero_add]
  | succ j ih =>
    obtain ⟨u, hu⟩ := step_next s
    rw [run_succ j s u hu] at h
    rw [Nat.succ_add, run_succ (j + k) s u hu]
    exact ih u h

/-- Any number of steps answers a next state. -/
theorem run_next (k : Nat) (s : State) : ∃ t, run k s = .next t := by
  induction k generalizing s with
  | zero => exact ⟨s, rfl⟩
  | succ k ih =>
    obtain ⟨u, hu⟩ := step_next s
    rw [run_succ k s u hu]
    exact ih u

/-- The machine's own `run` is the host's, over the host's interface. -/
theorem run_eq_host (k : Nat) (s : State) : run k s = Host.Core.run Sys2Proof.core k s := by
  induction k generalizing s with
  | zero => rfl
  | succ k ih =>
    obtain ⟨u, hu⟩ := step_next s
    have hc : Sys2Proof.core.step s = .next u := hu
    rw [run_succ k s u hu, ih u]
    simp only [Host.Core.run]
    rw [hc]

end Sys2Proof.Machine
end

