-- ==== Sys2Proof/Tests/Slice0.lean ====
section
/-! SUPPORT. The model's own tests. Expected values come from the spec: its encodings (spec/30_encoding.md R81,
spec/opcode_table.json) and its vectors (spec/95_test_vectors.md, the row named in each comment). The last part shows, for
each obligation with hypotheses, a state and operands that meet them together. -/

namespace Sys2Proof.Tests

open Sys2Proof.Machine

/-! ### Helpers -/

/-- Sixteen words of memory, two lines of two words, one microinstruction (95 section 2.5, E1) at 0 and a populated all-zero
word at 1, two mapped keys, SH = 3 refused. -/
def tinyConfig : Config where
  memorySize   := 16
  blockSize    := 2
  cacheSize    := 2
  controlStore := [(0, 0x021800201), (1, 0)]
  opcodeMap    := [(0x2, 0x123), (0xF5, 0x0F5)]
  acceptShift3 := false

def tiny : State := State.initial tinyConfig

/-- `tiny` about to run phase `p` of the word `w`. -/
def inPhase (p : Phase) (w : MicroWord) : State := { tiny with phase := p, mir := w }

/-- One field of the next state. -/
def got {α : Type} (f : State → α) : Result → Option α
  | .next s => some (f s)
  | .fault _ => none
  | .refused _ => none

/-! ### Well-formedness: each check refuses an ill-formed term -/

theorem test_wf_micro_amux : ¬ Micro.WellFormed { amux := 2 } := by decide
theorem test_wf_micro_cond : ¬ Micro.WellFormed { cond := 4 } := by decide
theorem test_wf_micro_alu : ¬ Micro.WellFormed { alu := 4 } := by decide
theorem test_wf_micro_sh : ¬ Micro.WellFormed { sh := 4 } := by decide
theorem test_wf_micro_mbr : ¬ Micro.WellFormed { mbr := 2 } := by decide
theorem test_wf_micro_mar : ¬ Micro.WellFormed { mar := 2 } := by decide
theorem test_wf_micro_rd : ¬ Micro.WellFormed { rd := 2 } := by decide
theorem test_wf_micro_wr : ¬ Micro.WellFormed { wr := 2 } := by decide
theorem test_wf_micro_enc : ¬ Micro.WellFormed { enc := 2 } := by decide
theorem test_wf_micro_c : ¬ Micro.WellFormed { c := 16 } := by decide
theorem test_wf_micro_b : ¬ Micro.WellFormed { b := 16 } := by decide
theorem test_wf_micro_a : ¬ Micro.WellFormed { a := 16 } := by decide
theorem test_wf_micro_addr : ¬ Micro.WellFormed { addr := 512 } := by decide
theorem test_wf_micro_widest : Micro.WellFormed
    { amux := 1, cond := 3, alu := 3, sh := 3, mbr := 1, mar := 1, rd := 1, wr := 1, enc := 1, c := 15, b := 15, a := 15,
      addr := 511 } := by decide

theorem test_wf_config : tinyConfig.WellFormed := by decide
theorem test_wf_memorySize_low : ¬ Config.WellFormed { tinyConfig with memorySize := 0 } := by decide
theorem test_wf_memorySize_high : ¬ Config.WellFormed { tinyConfig with memorySize := 65537 } := by decide
theorem test_wf_blockSize : ¬ Config.WellFormed { tinyConfig with blockSize := 0 } := by decide
theorem test_wf_cacheSize : ¬ Config.WellFormed { tinyConfig with cacheSize := 0 } := by decide
theorem test_wf_controlStore_keys : ¬ ControlStoreWellFormed [(1, 0), (1, 0)] := by decide
theorem test_wf_controlStore_address : ¬ ControlStoreWellFormed [(512, 0)] := by decide
theorem test_wf_controlStore_word : ¬ ControlStoreWellFormed [(0, 2 ^ 33)] := by decide
theorem test_wf_opcodeMap_keys : ¬ OpcodeMapWellFormed [(5, 0), (2, 0)] := by decide
theorem test_wf_opcodeMap_target : ¬ OpcodeMapWellFormed [(2, 512)] := by decide
theorem test_wf_image : ¬ ImageWellFormed [0, 65536] := by decide
theorem test_construct_refuses_image : construct tinyConfig [65536] = none := by decide
theorem test_construct_refuses_parameters : construct { tinyConfig with cacheSize := 0 } [] = none := by decide

/-! ### Codec (95 sections 1 and 2.2) -/

theorem test_encode_addr_cut : encode { addr := 0x3FF } = 0x0000001FF := by decide
theorem test_encode_fields_cut : encode { sh := 7, alu := 5 } = 0x01C000000 := by decide
theorem test_encode_one_bits :
    (encode { amux := 1 }, encode { cond := 1 }, encode { alu := 1 }, encode { sh := 1 }, encode { mbr := 1 },
      encode { mar := 1 }, encode { rd := 1 }) =
    (0x100000000, 0x040000000, 0x010000000, 0x004000000, 0x002000000, 0x001000000, 0x000800000) := by decide
theorem test_encode_low_bits :
    (encode { wr := 1 }, encode { enc := 1 }, encode { c := 1 }, encode { b := 1 }, encode { a := 1 },
      encode { addr := 1 }, encode {}) =
    (0x000400000, 0x000200000, 0x000020000, 0x000002000, 0x000000200, 0x000000001, 0) := by decide
theorem test_decode_all_ones : decode 0x1FFFFFFFF =
    { amux := 1, cond := 3, alu := 3, sh := 3, mbr := 1, mar := 1, rd := 1, wr := 1, enc := 1, c := 15, b := 15, a := 15,
      addr := 511 } := by decide
theorem test_decode_L1_1 : decode 0x1E7FF6DA5 =
    { amux := 1, cond := 3, alu := 2, sh := 1, mbr := 1, mar := 1, rd := 1, wr := 1, enc := 1, c := 15, b := 11, a := 6,
      addr := 0x1A5 } := by decide
theorem test_opkey :
    (opkey 0x2011, opkey 0x0000, opkey 0xEFFF, opkey 0xF000, opkey 0xF5AB, opkey 0xFFFF) =
    (0x2, 0x0, 0xE, 0xF0, 0xF5, 0xFF) := by decide

/-! ### Each row, from a word written out from its encoding (opcode_table.json; R81) -/

/-- 95 3.1, 0x001: A=PC B=PLUS1 ALU=ADD ENC C=PC ADDR=0x002. -/
theorem test_row_aluAdd : .aluAdd ∈ (decode 0x000232202).rows ∧
    Instr.matchesWord (.aluAdd) 0x000232202 = true := by decide
/-- bits 29:28 = 01. -/
theorem test_row_aluAnd : .aluAnd ∈ (decode 0b000010000000000000000000000000000).rows ∧
    Instr.matchesWord (.aluAnd) 0b000010000000000000000000000000000 = true := by decide
/-- bits 29:28 = 10. -/
theorem test_row_aluPass : .aluPass ∈ (decode 0b000100000000000000000000000000000).rows ∧
    Instr.matchesWord (.aluPass) 0b000100000000000000000000000000000 = true := by decide
/-- bits 29:28 = 11. -/
theorem test_row_aluNot : .aluNot ∈ (decode 0b000110000000000000000000000000000).rows ∧
    Instr.matchesWord (.aluNot) 0b000110000000000000000000000000000 = true := by decide
/-- bits 27:26 = 00. -/
theorem test_row_shNone : .shNone ∈ (decode 0x023400000).rows ∧
    Instr.matchesWord (.shNone) 0x023400000 = true := by decide
/-- bits 27:26 = 01. -/
theorem test_row_shSra1 : .shSra1 ∈ (decode 0b000000100000000000000000000000000).rows ∧
    Instr.matchesWord (.shSra1) 0b000000100000000000000000000000000 = true := by decide
/-- bits 27:26 = 10. -/
theorem test_row_shSll8 : .shSll8 ∈ (decode 0b000001000000000000000000000000000).rows ∧
    Instr.matchesWord (.shSll8) 0b000001000000000000000000000000000 = true := by decide
/-- bits 27:26 = 11. -/
theorem test_row_shReserved3 : .shReserved3 ∈ (decode 0b000001100000000000000000000000000).rows ∧
    Instr.matchesWord (.shReserved3) 0b000001100000000000000000000000000 = true := by decide
/-- bit 32 = 0. -/
theorem test_row_amuxA : .amuxA ∈ (decode 0x0FFFFFFFF).rows ∧
    Instr.matchesWord (.amuxA) 0x0FFFFFFFF = true := by decide
/-- bit 32 = 1. -/
theorem test_row_amuxMbr : .amuxMbr ∈ (decode 0b100000000000000000000000000000000).rows ∧
    Instr.matchesWord (.amuxMbr) 0b100000000000000000000000000000000 = true := by decide
/-- bit 24 = 1. -/
theorem test_row_marw : .marw ∈ (decode 0b000000001000000000000000000000000).rows ∧
    Instr.matchesWord (.marw) 0b000000001000000000000000000000000 = true := by decide
/-- bit 25 = 1. -/
theorem test_row_mbrw : .mbrw ∈ (decode 0b000000010000000000000000000000000).rows ∧
    Instr.matchesWord (.mbrw) 0b000000010000000000000000000000000 = true := by decide
/-- bit 21 = 1, bits 20:17 = 1101. -/
theorem test_row_enc : .enc 13 ∈ (decode 0b000000000001110100000000000000000).rows ∧
    Instr.matchesWord (.enc 13) 0b000000000001110100000000000000000 = true := by decide
/-- bit 23 = 1. -/
theorem test_row_rd : .rd ∈ (decode 0b000000000100000000000000000000000).rows ∧
    Instr.matchesWord (.rd) 0b000000000100000000000000000000000 = true := by decide
/-- bit 22 = 1. -/
theorem test_row_wr : .wr ∈ (decode 0b000000000010000000000000000000000).rows ∧
    Instr.matchesWord (.wr) 0b000000000010000000000000000000000 = true := by decide
/-- 95 2.7 row 1: bits 31:30 = 00, ADDR = 0x011. -/
theorem test_row_condNo : .condNo 0x011 ∈ (decode 0x000000011).rows ∧
    Instr.matchesWord (.condNo 0x011) 0x000000011 = true := by decide
/-- 95 2.7 row 2: A=MINUS1 ALU=PASS COND=JAM_N ADDR=0x080. -/
theorem test_row_condJamn : .condJamn 0x080 ∈ (decode 0x060001480).rows ∧
    Instr.matchesWord (.condJamn 0x080) 0x060001480 = true := by decide
/-- 95 2.7 row 5: A=PLUS1 ALU=PASS SH=SRA1 COND=JAM_Z ADDR=0x040. -/
theorem test_row_condJamz : .condJamz 0x040 ∈ (decode 0x0A4001240).rows ∧
    Instr.matchesWord (.condJamz 0x040) 0x0A4001240 = true := by decide
/-- 95 2.7 row 7: ALU=ADD COND=DECODE ADDR=0x1FF. -/
theorem test_row_condDecode : .condDecode ∈ (decode 0x0C00001FF).rows ∧
    Instr.matchesWord (.condDecode) 0x0C00001FF = true := by decide
/-- the all-zero word. -/
theorem test_row_nopAllZero : .nopAllZero ∈ (decode 0x000000000).rows ∧
    Instr.matchesWord (.nopAllZero) 0x000000000 = true := by decide

theorem test_no_enable_row : .marw ∉ (decode 0x1FEFFFFFF).rows ∧ .mbrw ∉ (decode 0x1FDFFFFFF).rows ∧
    .rd ∉ (decode 0x1FF7FFFFF).rows ∧ .wr ∉ (decode 0x1FFBFFFFF).rows ∧ .enc 15 ∉ (decode 0x1FFDFFFFF).rows := by decide
theorem test_encodeRow : (encodeRow (.enc 13), encodeRow (.condJamz 0x040), encodeRow .aluNot) =
    (0b000000000001110100000000000000000, 0x080000040, 0x030000000) := by decide
theorem test_decodeTableWord :
    decodeTableWord 33 0x00C000000 = some .shReserved3 ∧ decodeTableWord 33 0x0003A0000 = some (.enc 13) ∧
    decodeTableWord 33 0x080000040 = some (.condJamz 0x040) ∧ decodeTableWord 33 0x000000011 = some (.condNo 0x011) ∧
    decodeTableWord 33 0 = some .nopAllZero := by decide

/-! ### Each row's action -/

/-- Latches a and b, the ALU row, and then the shift row: the result with its flags. -/
def computed (alu sh : Instr) (a b : Word) : Option (Word × Bool × Bool) :=
  got (fun t => (t.aluResult, t.n, t.z)) (execAll [alu, sh] { tiny with latchA := a, latchB := b, n := true, z := true })

theorem test_exec_aluAdd_wraps : computed .aluAdd .shNone 0xFFFF 0x0001 = some (0x0000, false, true) := by decide
theorem test_exec_aluAdd_L1_2 : computed .aluAdd .shNone 5 3 = some (8, false, false) := by decide
theorem test_exec_aluAnd : computed .aluAnd .shNone 0x1234 0x00FF = some (0x0034, false, false) := by decide
theorem test_exec_aluAnd_zero : computed .aluAnd .shNone 0xAAAA 0x5555 = some (0x0000, false, true) := by decide
theorem test_exec_aluPass : computed .aluPass .shNone 0x8000 0x0000 = some (0x8000, true, false) := by decide
theorem test_exec_aluPass_ignores_b : computed .aluPass .shNone 0x1234 0x00FF = some (0x1234, false, false) := by decide
theorem test_exec_aluNot : computed .aluNot .shNone 0x00FF 0xFFFF = some (0xFF00, true, false) := by decide
theorem test_exec_shSra1_sign : computed .aluPass .shSra1 0x8001 0x0000 = some (0xC000, true, false) := by decide
theorem test_exec_shSra1_zero : computed .aluPass .shSra1 0x0001 0x0000 = some (0x0000, false, true) := by decide
theorem test_exec_shSll8 : computed .aluAdd .shSll8 0x7FFF 0x0001 = some (0x0000, false, true) := by decide
theorem test_exec_shSll8_negative : computed .aluPass .shSll8 0x7FFF 0x0001 = some (0xFF00, true, false) := by decide
theorem test_exec_shNone_negative : computed .aluAdd .shNone 0x7FFF 0x0001 = some (0x8000, true, false) := by decide

theorem test_exec_shReserved3 : got (fun t => (t.refused, t.n, t.aluResult)) (exec .shReserved3 { tiny with n := true, aluResult := 7 }) =
    some (some .reservedShift, true, 7) := by decide
theorem test_exec_amuxMbr : got (·.latchA) (exec .amuxMbr { tiny with latchA := 7, regs := { Regs.reset with mbr := 0x0042 } }) =
    some 0x0042 := by decide
theorem test_exec_amuxA : got (·.latchA) (exec .amuxA { tiny with latchA := 7, regs := { Regs.reset with mbr := 0x0042 } }) =
    some 7 := by decide
theorem test_exec_marw : got (·.regs.mar) (exec .marw { tiny with aluResult := 0x0010 }) = some 0x0010 := by decide
theorem test_exec_mbrw : got (·.regs.mbr) (exec .mbrw { tiny with aluResult := 0x0008 }) = some 0x0008 := by decide
/-- R172's example, and 95 2.6 rows 6 and 7: the read-only slot and slot 0 drop the write. -/
theorem test_exec_enc_ir : got (·.regs.ir) (exec (.enc 2) { tiny with aluResult := 0x1012 }) = some 0x1012 := by decide
theorem test_exec_enc_dropped :
    got (fun t => (t.readReg 8, t.readReg 0)) (execAll [.enc 8, .enc 0] { tiny with aluResult := 0xFFFF }) =
      some (0, 0) := by decide
/-- A miss refills line 0 of `tiny` with the block at 8. -/
theorem test_exec_rd_miss :
    got (fun t => (t.regs.mbr, t.accessCacheLine 0))
      (exec .rd { tiny with mem := [(8, 0x0777), (9, 0x0999)], regs := { Regs.reset with mar := 9 } }) =
    some (0x0999, some { valid := true, tag := 2, data := [0x0777, 0x0999] }) := by decide
/-- 95 2.6 row 11: out of range reads 0. -/
theorem test_exec_rd_out_of_range :
    got (·.regs.mbr) (exec .rd { tiny with mem := [(15, 1)], regs := { Regs.reset with mar := 0xFFFF, mbr := 5 } }) = some 0 := by decide
theorem test_exec_wr : got (fun t => (t.mem, t.lines)) (exec .wr { tiny with mem := [(9, 1)], regs := { Regs.reset with mar := 8, mbr := 8 } }) =
    some ([(8, 8), (9, 1)], tiny.lines) := by decide
/-- 95 2.6 row 12: out of range stores nothing. -/
theorem test_exec_wr_out_of_range :
    got (·.mem) (exec .wr { tiny with regs := { Regs.reset with mar := 16, mbr := 8 } }) = some [] := by decide
theorem test_exec_condNo : got (·.mpc) (exec (.condNo 0x011) { tiny with n := true, z := true }) = some 0x011 := by decide
/-- 95 2.7 rows 2 to 4. -/
theorem test_exec_condJamn : got (·.mpc) (exec (.condJamn 0x080) { tiny with n := true }) = some 0x180 := by decide
theorem test_exec_condJamn_not : got (·.mpc) (exec (.condJamn 0x080) { tiny with z := true }) = some 0x080 := by decide
/-- 95 2.7 rows 5 and 6. -/
theorem test_exec_condJamz : got (·.mpc) (exec (.condJamz 0x040) { tiny with z := true }) = some 0x140 := by decide
theorem test_exec_condJamz_not : got (·.mpc) (exec (.condJamz 0x040) { tiny with n := true }) = some 0x040 := by decide
/-- 95 2.7 row 7. -/
theorem test_exec_condDecode : got (fun t => (t.mpc, t.faults)) (exec .condDecode { tiny with regs := { Regs.reset with ir := 0xF5AB } }) =
    some (0x0F5, []) := by decide
/-- 95 1, L1-6. -/
theorem test_exec_condDecode_unmapped :
    got (fun t => (t.mpc, t.faults)) (exec .condDecode { tiny with mpc := 2, regs := { Regs.reset with ir := 0xD000 } }) =
    some (0, [.unmappedOpcode 0xD000 0xD]) := by decide
theorem test_exec_nopAllZero :
    got (fun t => (t.n, t.z, t.mpc, t.aluResult)) (exec .nopAllZero { tiny with n := true, mpc := 5, aluResult := 9 }) =
    some (false, true, 0, 0) := by decide

/-! ### Phases (95 section 2.5) -/

/-- E1, step 1. -/
theorem test_step_fetch : got (fun t => (t.mir, t.phase)) (step tiny) = some (0x021800201, .decodeRead) := by decide
/-- E4, step 1. -/
theorem test_step_fetch_empty : got (fun t => (t.mir, t.faults)) (step { tiny with mpc := 0x150 }) =
    some (0, [.unpopulatedControlStore 0x150]) := by decide
/-- E2, step 2: the latches are AC and PLUS1. -/
theorem test_step_decodeRead :
    got (fun t => (t.latchA, t.latchB)) (step { inPhase .decodeRead 0x1003B2805 with regs := { Regs.reset with ac := 7, mbr := 0x20 } }) =
    some (7, 1) := by decide
/-- E2, step 3: AMUX, and then the ALU. -/
theorem test_step_aluExec :
    got (fun t => (t.latchA, t.aluResult, t.n, t.z))
      (step { inPhase .aluExec 0x1003B2805 with latchA := 7, latchB := 1, regs := { Regs.reset with ac := 7, mbr := 0x20 } }) =
    some (0x20, 0x21, false, false) := by decide
/-- SH = 3 with AMUX = 1: the mark, and latchA as it was (R129; log 12). -/
theorem test_step_refuses :
    got (fun t => (t.refused, t.latchA, t.phase)) (step { inPhase .aluExec 0x10C000000 with latchA := 7 }) =
    some (some .reservedShift, 7, .aluExec) := by decide
/-- E2, step 4. -/
theorem test_step_writeback :
    got (fun t => (t.regs.scr0, t.mpc, t.phase)) (step { inPhase .writebackNext 0x1003B2805 with aluResult := 0x21 }) =
    some (0x21, 5, .fetchMicro) := by decide
/-- 95 2.6 row 9: the dispatch sees the new IR. -/
theorem test_step_decode_new_ir :
    got (fun t => (t.regs.ir, t.mpc)) (step { inPhase .writebackNext 0x0E0241A00 with aluResult := 0x2000 }) =
    some (0x2000, 0x123) := by decide
/-- 95 2.6 row 2: RD overwrites the ALU value in MBR. -/
theorem test_step_rd_after_mbr :
    got (·.regs.mbr) (step { inPhase .writebackNext 0x022801A00 with aluResult := 0x1234, mem := [(4, 0x0777)],
                                                                       regs := { Regs.reset with mar := 4 } }) =
    some 0x0777 := by decide
theorem test_withFetchWord : got (·.regs.mar) (step (tiny.withFetchWord 33 0x001000000)) = some 0 ∧
    (tiny.withFetchWord 33 0x001000000).phase = .writebackNext := by decide

/-! ### Cache (95 sections 2.3 and 2.4) -/

/-- BS = 3, CS = 5 rows of 2.3. -/
theorem test_decompose :
    let cfg := { tinyConfig with blockSize := 3, cacheSize := 5 }
    (cfg.offsetOf 29, cfg.indexOf 29, cfg.tagOf 29, cfg.offsetOf 30, cfg.indexOf 30, cfg.tagOf 30) = (2, 4, 1, 0, 0, 2) := by decide
theorem test_decompose_reference :
    (Config.reference.offsetOf 0x0123, Config.reference.indexOf 0x0FFF, Config.reference.tagOf 0xFFFF) = (3, 7, 2047) := by decide
/-- GetBlock(9) of 2.3, with MEMORY_SIZE = 10 and BLOCK_SIZE = 3. -/
theorem test_getBlock_pads :
    State.getBlock { tiny with cfg := { tinyConfig with memorySize := 10, blockSize := 3 }, mem := [(9, 0x0109)] } 9 =
      [0x0109, 0, 0] := by decide
/-- Rows 1 and 2 of 2.4 on `tiny`: a miss, then a hit. -/
theorem test_cache_miss_then_hit :
    let s := { tiny with mem := [(8, 0x1234)] }
    (s.cacheRead 8).2.1 = false ∧ ((s.cacheRead 8).2.2.cacheRead 8).2.1 = true ∧
      ((s.cacheRead 8).2.2.cacheRead 8).1 = 0x1234 := by decide
/-- Row 5: a write hit changes the line and memory. -/
theorem test_cache_write_hit :
    let s := { tiny with lines := [⟨true, 2, [0, 0]⟩, ⟨false, 0, [0, 0]⟩] }
    (s.cacheWrite 9 0xBEEF).1 = true ∧ (s.cacheWrite 9 0xBEEF).2.mem = [(9, 0xBEEF)] ∧
      (s.cacheWrite 9 0xBEEF).2.lines = [⟨true, 2, [0, 0xBEEF]⟩, ⟨false, 0, [0, 0]⟩] := by decide
/-- Row 9: a write hit to an address out of range changes nothing. -/
theorem test_cache_write_hit_out_of_range :
    let s := { tiny with lines := [⟨true, 4, [0, 0]⟩, ⟨false, 0, [0, 0]⟩] }
    (s.cacheWrite 16 0x5555).1 = true ∧ (s.cacheWrite 16 0x5555).2 = s := by decide
theorem test_memory_zero_is_unlisted : Memory.write [(3, 1), (5, 2)] 3 0 = [(5, 2)] := by decide

/-! ### Host interface and signed reads (95 section 2.1) -/

theorem test_signed16 : (signed16 0x8005, signed16 0xFFFF, signed16 0x7FFF, signed16 0x8000) = (-32763, -1, 32767, -32768) := by decide
theorem test_preload : (construct tinyConfig [5, 0, 7]).map (·.mem) = some [(0, 5), (2, 7)] := by decide
theorem test_event_codes :
    (FaultEvent.unpopulatedControlStore 0).code = 1 ∧ (FaultEvent.unmappedOpcode 0 0).code = 2 := by decide

/-! ### Witnesses: the hypotheses of each obligation can be met -/

/-- A coherent state with a valid line: 8 and 9 are cached in line 0. -/
def warm : State :=
  { tiny with mem := [(8, 0x0777)], lines := [⟨true, 2, [0x0777, 0]⟩, ⟨false, 0, [0, 0]⟩]
              regs := { Regs.reset with mar := 8, mbr := 3 } }

/-- The same with the line not cached. -/
def cold : State := { warm with lines := tiny.lines }

/-- A word with SH = 3, in phase 3. -/
def reserved : State := inPhase .aluExec 0x00C000000

theorem witness_CodecRoundTrip : Micro.WellFormed { amux := 1, cond := 3, sh := 3, c := 15, addr := 511 } := by decide

theorem witness_RowsKeepEveryField :
    let f : Micro := { cond := 3, c := 9, addr := 77 }
    f.WellFormed ∧ f.rows = f.rows ∧ f.enc = 0 ∧ f.cond = 3 := by decide

/-- At the edge of the two ranges. -/
theorem witness_DispatchKeyOfIr :
    (0xF000 : Word).toNat / 0x1000 = 0xF ∧ (0xFFFF : Word).toNat / 0x1000 = 0xF ∧ (0xEFFF : Word).toNat / 0x1000 ≠ 0xF ∧
      (0x0000 : Word).toNat / 0x1000 ≠ 0xF := by decide

theorem witness_RegisterWriteThenRead :
    (Oracle.writable 1 ∧ Oracle.writable 7 ∧ Oracle.writable 13 ∧ Oracle.writable 15) ∧ (2 : RegIdx) ≠ 1 ∧
      ¬ Oracle.writable 0 ∧ ¬ Oracle.writable 8 ∧ ¬ Oracle.writable 12 := by
  unfold Oracle.writable; decide

/-- A slot changed by each of ENC (E2, step 4), MARW (95 2.6 row 8), MBRW (row 4) and RD (row 2). -/
theorem witness_OnlyNamedSlotsChange :
    (∃ t, step { inPhase .writebackNext 0x1003B2805 with aluResult := 0x21 } = .next t ∧ t.readReg 13 ≠ tiny.readReg 13) ∧
    (∃ t, step { inPhase .writebackNext 0x0212A1A00 with aluResult := 0x10 } = .next t ∧ t.readReg 5 ≠ tiny.readReg 5) ∧
    (∃ t, step { inPhase .writebackNext 0x022400800 with aluResult := 8 } = .next t ∧ t.readReg 6 ≠ tiny.readReg 6) ∧
    (∃ t, step { inPhase .writebackNext 0x022801A00 with mem := [(0, 0x0777)] } = .next t ∧ t.readReg 6 ≠ tiny.readReg 6) := by
  refine ⟨⟨_, rfl, ?_⟩, ⟨_, rfl, ?_⟩, ⟨_, rfl, ?_⟩, ⟨_, rfl, ?_⟩⟩ <;> decide

theorem witness_ReservedShiftRow : tiny.cfg.acceptShift3 = false ∧
    State.cfg { tiny with cfg := { tinyConfig with acceptShift3 := true } } = { tinyConfig with acceptShift3 := true } ∧
    Config.acceptShift3 { tinyConfig with acceptShift3 := true } = true := by decide

theorem witness_ReservedShiftStepRefuses : reserved.refused = none ∧ reserved.phase = .aluExec ∧
    reserved.cfg.acceptShift3 = false ∧ reserved.mir.getLsbD 27 = true ∧ reserved.mir.getLsbD 26 = true := by decide

theorem witness_FetchLatchesWord : tiny.refused = none ∧ tiny.phase = .fetchMicro ∧
    tiny.cfg.controlSlot tiny.mpc = some 0x021800201 := by decide

theorem witness_FetchLatchesWord_empty : State.refused { tiny with mpc := 511 } = none ∧
    State.phase { tiny with mpc := 511 } = .fetchMicro ∧ tiny.cfg.controlSlot 511 = none := by decide

theorem witness_DecodeReadLatches : (inPhase .decodeRead 0x1003B2805).refused = none ∧
    (inPhase .decodeRead 0x1003B2805).phase = .decodeRead := by decide

theorem witness_AluExecComputesFormula : (inPhase .aluExec 0x1003B2805).refused = none ∧
    (inPhase .aluExec 0x1003B2805).phase = .aluExec ∧ (decode (inPhase .aluExec 0x1003B2805).mir.toNat).sh ≠ 3 := by decide

theorem witness_FlagsFollowEveryResult :
    let s := { reserved with cfg := { tinyConfig with acceptShift3 := true } }
    s.refused = none ∧ s.phase = .aluExec ∧ s.cfg.acceptShift3 = true ∧ (decode s.mir.toNat).sh = 3 := by decide

theorem witness_AluExecRunsDecodedRows : ∃ t u v : State,
    (inPhase .aluExec 0x1003B2805).refused = none ∧ (inPhase .aluExec 0x1003B2805).phase = .aluExec ∧
    exec (decode (inPhase .aluExec 0x1003B2805).mir.toNat).amuxRow (inPhase .aluExec 0x1003B2805) = .next t ∧
    exec (decode (inPhase .aluExec 0x1003B2805).mir.toNat).aluRow t = .next u ∧
    exec (decode (inPhase .aluExec 0x1003B2805).mir.toNat).shRow u = .next v := by
  obtain ⟨t, ht⟩ := exec_next (decode (inPhase .aluExec 0x1003B2805).mir.toNat).amuxRow (inPhase .aluExec 0x1003B2805)
  obtain ⟨u, hu⟩ := exec_next (decode (inPhase .aluExec 0x1003B2805).mir.toNat).aluRow t
  obtain ⟨v, hv⟩ := exec_next (decode (inPhase .aluExec 0x1003B2805).mir.toNat).shRow u
  exact ⟨t, u, v, rfl, rfl, ht, hu, hv⟩

/-- Every enable set: the word of 95 L1-1. -/
theorem witness_WritebackRunsRowsInOrder :
    let s := inPhase .writebackNext 0x1E7FF6DA5
    ∃ s1 s2 s3 s4 s5 t : State, s.refused = none ∧ s.phase = .writebackNext ∧
      (if s.mir.getLsbD 24 then exec .marw s else .next s) = .next s1 ∧
      (if s.mir.getLsbD 25 then exec .mbrw s1 else .next s1) = .next s2 ∧
      (if s.mir.getLsbD 21 then exec (.enc (s.mir.extractLsb' 17 4)) s2 else .next s2) = .next s3 ∧
      (if s.mir.getLsbD 23 then exec .rd s3 else .next s3) = .next s4 ∧
      (if s.mir.getLsbD 22 then exec .wr s4 else .next s4) = .next s5 ∧
      exec (decode s.mir.toNat).condRow s5 = .next t := by
  intro s
  obtain ⟨s1, h1⟩ := exec_next .marw s
  obtain ⟨s2, h2⟩ := exec_next .mbrw s1
  obtain ⟨s3, h3⟩ := exec_next (.enc (s.mir.extractLsb' 17 4)) s2
  obtain ⟨s4, h4⟩ := exec_next .rd s3
  obtain ⟨s5, h5⟩ := exec_next .wr s4
  obtain ⟨t, ht⟩ := exec_next (decode s.mir.toNat).condRow s5
  exact ⟨s1, s2, s3, s4, s5, t, rfl, rfl, (if_pos (by decide)).trans h1, (if_pos (by decide)).trans h2,
    (if_pos (by decide)).trans h3, (if_pos (by decide)).trans h4, (if_pos (by decide)).trans h5, ht⟩

theorem witness_CBusWrite : Oracle.writable 15 ∧ ¬ Oracle.writable 12 ∧ (3 : RegIdx) ≠ 15 := by
  unfold Oracle.writable; decide

/-- An address at MEMORY_SIZE, in a state that meets the invariant. -/
theorem witness_ReadRowLoadsMbr : State.Inv { warm with regs := { Regs.reset with mar := 16 } } ∧
    State.cfg { warm with regs := { Regs.reset with mar := 16 } } = tinyConfig ∧ tinyConfig.memorySize ≤ (16 : Word).toNat := by decide

theorem witness_ReadRowLoadsMemoryWord : warm.Inv ∧ warm.cacheHit warm.regs.mar.toNat = true := by decide

theorem witness_WriteRowStoresMbr : warm.MemoryWellFormed ∧ warm.regs.mar.toNat < warm.cfg.memorySize ∧ (9 : Nat) ≠ warm.regs.mar.toNat := by decide

theorem witness_WriteRowStoresMbr_out_of_range :
    State.cfg { warm with regs := { Regs.reset with mar := 16 } } = tinyConfig ∧ tinyConfig.memorySize ≤ (16 : Word).toNat := by decide

/-- The last backed address and the first that is not. -/
theorem witness_MemoryReadAfterWrite : warm.cfg.memorySize ≤ 16 ∧ warm.MemoryWellFormed ∧ 15 < warm.cfg.memorySize ∧ (14 : Nat) ≠ 15 := by decide

theorem witness_BlockReadZeroPads : 0 < warm.cfg.blockSize ∧ 15 + 0 < warm.cfg.memorySize ∧ 1 < warm.cfg.blockSize ∧
    warm.cfg.memorySize ≤ 15 + 1 := by decide

theorem witness_CacheReadHitOrRefill :
    ((warm.line (8 / warm.cfg.blockSize % warm.cfg.cacheSize)).valid = true ∧
      (warm.line (8 / warm.cfg.blockSize % warm.cfg.cacheSize)).tag = 8 / (warm.cfg.blockSize * warm.cfg.cacheSize)) ∧
    ¬ ((warm.line (10 / warm.cfg.blockSize % warm.cfg.cacheSize)).valid = true ∧
      (warm.line (10 / warm.cfg.blockSize % warm.cfg.cacheSize)).tag = 10 / (warm.cfg.blockSize * warm.cfg.cacheSize)) := by decide

theorem witness_NoWriteAllocate : cold.Inv ∧ (cold.cacheWrite 15 7).1 = false ∧ 15 < cold.cfg.memorySize := by decide

/-- A valid line over an address out of range, so that the write hits. -/
theorem witness_OutOfRangeWriteIgnored :
    let s := { warm with lines := [⟨true, 4, [0, 0]⟩, ⟨false, 0, [0, 0]⟩] }
    s.cfg.memorySize ≤ 16 ∧ s.Inv ∧ s.cacheHit 16 = true := by decide

theorem witness_CacheReadReturnsMemory : warm.Inv ∧ cold.Inv := by decide

theorem witness_CacheReadSeesLatestWrite : warm.Inv ∧ (8 : Nat) = 8 ∧ 8 < warm.cfg.memorySize ∧ warm.cfg.memorySize ≤ 16 := by decide

theorem witness_JamBranchesOnFlag : (0x100 : MicroAddr).getLsbD 8 = true ∧ (0x0FF : MicroAddr).getLsbD 8 = false := by decide

theorem witness_DecodeDispatches : tiny.cfg.mapped (opkey 0x2011) = some 0x123 ∧ tiny.cfg.mapped (opkey 0xD000) = none := by decide

theorem witness_DispatchSeesNewIr :
    let s := { inPhase .writebackNext 0x0E0241A00 with aluResult := 0x2000 }
    s.refused = none ∧ s.phase = .writebackNext ∧ (decode s.mir.toNat).enc = 1 ∧ (decode s.mir.toNat).c = 2 ∧
      (decode s.mir.toNat).cond = 3 ∧ s.cfg.mapped (opkey s.aluResult) = some 0x123 := by decide

theorem witness_DispatchSeesNewIr_unmapped :
    let s := { inPhase .writebackNext 0x0E0241A00 with aluResult := 0xD000 }
    s.refused = none ∧ s.phase = .writebackNext ∧ (decode s.mir.toNat).enc = 1 ∧ (decode s.mir.toNat).c = 2 ∧
      (decode s.mir.toNat).cond = 3 ∧ s.cfg.mapped (opkey s.aluResult) = none := by decide

theorem witness_EmptySlotRecovers :
    let s := { warm with mpc := 0x150 }
    s.refused = none ∧ s.phase = .fetchMicro ∧ s.cfg.controlSlot s.mpc = none := by decide

/-- Three enables set before the dispatch of an unmapped key. -/
theorem witness_UnmappedOpcodeRecovers :
    let s := { inPhase .writebackNext 0x0E3241A00 with aluResult := 0xD000 }
    ∃ t, s.refused = none ∧ s.phase = .writebackNext ∧ (decode s.mir.toNat).cond = 3 ∧
      execAll (decode s.mir.toNat).enableRows s = .next t ∧ s.cfg.mapped (opkey t.regs.ir) = none := by
  refine ⟨_, ?_, ?_, ?_, rfl, ?_⟩ <;> decide

theorem witness_AtMostOneFaultPerMicrocycle : tiny.phase = .fetchMicro ∧ ∃ t, run 4 tiny = .next t :=
  ⟨rfl, run_next 4 tiny⟩

theorem witness_FaultLogOnlyGrows : ∃ t, step { tiny with mpc := 7 } = .next t ∧ t.faults ≠ [] := by
  refine ⟨_, rfl, ?_⟩; decide

theorem witness_EmptyFetchEntryLoops :
    let s := { warm with cfg := { tinyConfig with controlStore := [] } }
    s.refused = none ∧ s.phase = .fetchMicro ∧ s.mpc = 0 ∧ s.cfg.controlSlot 0 = none := by decide

theorem witness_AllZeroWordMicrocycle :
    let s := { warm with mpc := 1 }
    s.refused = none ∧ s.phase = .fetchMicro ∧ s.cfg.controlSlot s.mpc = some 0 := by decide

theorem witness_PhaseCounterCycles : (∃ t, step tiny = .next t ∧ t.refused = none) ∧
    ∃ t, step reserved = .next t ∧ t.refused ≠ none := by
  refine ⟨⟨_, rfl, ?_⟩, ⟨_, rfl, ?_⟩⟩ <;> decide

theorem witness_MicrocycleSummary : warm.refused = none ∧ warm.phase = .fetchMicro ∧
    warm.cfg.controlSlot warm.mpc = some 0x021800201 ∧ (decode (0x021800201 : MicroWord).toNat).sh ≠ 3 := by decide

theorem witness_EachPhaseWritesItsOwn : ∀ p : Phase, (inPhase p 0x021800201).phase = p ∧ ∃ t, step (inPhase p 0x021800201) = .next t :=
  fun _ => ⟨rfl, step_next _⟩

theorem witness_NoEnableNoDataChange :
    let s := inPhase .writebackNext 0x0C00001FF
    s.refused = none ∧ s.phase = .writebackNext ∧ (decode s.mir.toNat).mar = 0 ∧ (decode s.mir.toNat).mbr = 0 ∧
      (decode s.mir.toNat).enc = 0 ∧ (decode s.mir.toNat).rd = 0 ∧ (decode s.mir.toNat).wr = 0 ∧ ∃ t, step s = .next t := by
  refine ⟨?_, ?_, ?_, ?_, ?_, ?_, ?_, step_next _⟩ <;> decide

/-- 95 2.6 row 3. -/
theorem witness_ReadThenWriteKeepsMemory :
    let s := { warm with phase := .writebackNext, mir := 0x000C00000 }
    s.Inv ∧ s.refused = none ∧ s.phase = .writebackNext ∧ (decode s.mir.toNat).rd = 1 ∧ (decode s.mir.toNat).wr = 1 := by decide

theorem witness_FlagsNeverCarryOver : tiny.refused = none ∧ tiny.phase = .fetchMicro ∧
    tiny.cfg.acceptShift3 = false ∧ ∀ w, tiny.cfg.controlSlot tiny.mpc = some w → (decode w.toNat).sh ≠ 3 := by
  refine ⟨rfl, rfl, rfl, fun w h => ?_⟩
  rw [show tiny.cfg.controlSlot tiny.mpc = some 0x021800201 from by decide] at h
  cases h; decide

/-- Two different caches over one memory. -/
theorem witness_CacheIsInvisible : warm.Inv ∧ State.Inv { warm with lines := cold.lines } ∧ warm.lines ≠ cold.lines ∧
    ∃ t, run 3 warm = .next t := by
  refine ⟨?_, ?_, ?_, run_next 3 warm⟩ <;> decide

theorem witness_StepKeepsInvariant : warm.Inv ∧ ∃ t, step warm = .next t := by
  refine ⟨?_, step_next warm⟩; decide

theorem witness_ConstructionMeetsInvariant : ∃ s, construct tinyConfig [5, 0, 7] = some s := by
  refine ⟨_, rfl⟩

theorem witness_ConstructionState : Oracle.writable 7 ∧ 1 < tinyConfig.cacheSize := by
  unfold Oracle.writable; decide

end Sys2Proof.Tests
end

section
/-! PROOFS. Bit 15 of a word as a bound on its value, and the signed read of a register (spec/10_state.md R26). -/

namespace Sys2Proof.Machine

/-- Bit 15, which `signed16` and `flagN` both read, speaks of the word as a natural. -/
theorem getLsbD_15_iff_le_toNat (v : Word) : v.getLsbD 15 = true ↔ 0x8000 ≤ v.toNat := by
  have hmsb : v.getLsbD 15 = v.msb := (BitVec.msb_eq_getLsbD_last v).symm
  rw [hmsb, BitVec.msb_eq_decide, decide_eq_true_iff]

theorem signed16_of_toNat_lt {v : Word} (h : v.toNat < 0x8000) : signed16 v = v.toNat :=
  if_neg fun hbit => Nat.not_le_of_lt h ((getLsbD_15_iff_le_toNat v).mp hbit)

theorem signed16_of_le_toNat {v : Word} (h : 0x8000 ≤ v.toNat) : signed16 v = (v.toNat : Int) - 0x10000 :=
  if_pos ((getLsbD_15_iff_le_toNat v).mpr h)

/-- Settles O55: the read is `signed16` of the slot's word, on either side of 0x8000. -/
theorem signedReadReinterpretsBit15 : Obligations.SignedReadReinterpretsBit15 := by
  intro s i
  obtain hlt | hle := Nat.lt_or_ge (s.readReg i).toNat 0x8000
  · exact .inl ⟨hlt, signed16_of_toNat_lt hlt⟩
  · exact .inr ⟨hle, signed16_of_le_toNat hle⟩

end Sys2Proof.Machine
end

section
/-! PROOFS. A memory read on either side of MEMORY_SIZE, the words of a block, and a cache write followed by a cache read
(spec/20_memory.md R51, R53, R60, R61, R65). -/

namespace Sys2Proof.Machine

/-! ### Memory reads and blocks -/

theorem State.memRead_of_lt (s : State) {a : Nat} (h : a < s.cfg.memorySize) : s.memRead a = s.mem.read a := if_pos h

theorem State.memRead_of_le (s : State) {a : Nat} (h : s.cfg.memorySize ≤ a) : s.memRead a = 0 :=
  if_neg (Nat.not_lt_of_le h)

theorem State.getBlock_getElem? (s : State) (start : Nat) {i : Nat} (h : i < s.cfg.blockSize) :
    (s.getBlock start)[i]? = some (s.memRead (start + i)) := by
  simp [State.getBlock, h]

/-- Settles O26: each word of the block is the memory read at its address, below MEMORY_SIZE and at or above it. -/
theorem blockReadZeroPads : Obligations.BlockReadZeroPads := by
  intro s start i
  refine ⟨s.getBlock_length start, fun hi hlt => ?_, fun hi hle => ?_⟩
  · rw [s.getBlock_getElem? start hi, s.memRead_of_lt hlt]
  · rw [s.getBlock_getElem? start hi, s.memRead_of_le hle]

/-! ### A cache write, then a cache read -/

theorem State.memWrite_eq_with_mem (s : State) (a : Nat) (v : Word) :
    s.memWrite a v = { s with mem := (s.memWrite a v).mem } := by
  unfold State.memWrite; split <;> rfl

/-- R61: a write miss is the memory write alone. -/
theorem State.cacheWrite_miss (s : State) (a : Nat) (v : Word) (h : s.cacheHit a = false) :
    s.cacheWrite a v = (false, s.memWrite a v) := by
  simp [State.cacheWrite, h]

/-- The hit test depends on the parameters and the lines, so a memory write leaves it as it was. -/
@[simp] theorem State.cacheHit_memWrite (s : State) (a b : Nat) (v : Word) :
    (s.memWrite a v).cacheHit b = s.cacheHit b := by
  simp [State.cacheHit, State.line]

/-- What a cache read sees after a cache write: the word written, at its own address where that is backed, else the memory word
from before. -/
theorem State.cacheRead_cacheWrite_value (s : State) (a b : Nat) (v : Word) (h : s.Inv) :
    ((s.cacheWrite a v).2.cacheRead b).1 = if b = a ∧ a < s.cfg.memorySize then v else s.memRead b := by
  obtain ⟨⟨-, hblock, hcache, -⟩, ⟨hmem, -⟩, hform, hcoh, -⟩ := h
  have hread : ((s.cacheWrite a v).2.cacheRead b).1 = (s.cacheWrite a v).2.memRead b :=
    State.cacheRead_value _ b (by simpa using hblock) (by simpa using hcache)
      (s.cacheWellFormed_cacheWrite a v hcache hform) (s.coherent_cacheWrite a v hblock hcache hmem hform hcoh)
  rw [hread, s.memRead_cacheWrite, s.memRead_memWrite a b v hmem]

/-- Settles O28: a write miss is a memory write, which leaves the hit test false, so the read after it misses as well; the
value it returns is the one written, because the write keeps the cache coherent with memory. -/
theorem noWriteAllocate : Obligations.NoWriteAllocate := by
  intro s addr v hinv hmiss
  have hwrite : s.cacheWrite addr v = (false, s.memWrite addr v) := s.cacheWrite_miss addr v hmiss
  refine ⟨?_, fun hlt => ⟨?_, ?_⟩⟩
  · rw [hwrite]
    exact s.memWrite_eq_with_mem addr v
  · rw [s.cacheRead_cacheWrite_value addr addr v hinv, if_pos ⟨rfl, hlt⟩]
  · have hstill : (s.memWrite addr v).cacheHit addr = false := (s.cacheHit_memWrite addr addr v).trans hmiss
    rw [hwrite, State.cacheRead_miss _ addr hstill]

end Sys2Proof.Machine
end

section
/-! PROOFS. The dispatch key of IR by IR's top 4 bits (spec/30_encoding.md R90). -/

namespace Sys2Proof.Machine

/-- A field that reaches up to bit 15 of a word is a quotient: no bit of the word stands above it. -/
theorem bitField_toNat_eq_div (v : Word) {lo width : Nat} (h : lo + width = 16) :
    bitField v.toNat lo width = v.toNat / 2 ^ lo := by
  have hlt : v.toNat < 2 ^ lo * 2 ^ width := by rw [← Nat.pow_add, h]; exact v.isLt
  rw [bitField, Nat.shiftRight_eq_div_pow, Nat.mod_eq_of_lt (Nat.div_lt_of_lt_mul hlt)]

theorem opkey_of_escape {ir : Word} (h : ir.toNat / 0x1000 = 0xF) : opkey ir = ir.toNat / 0x100 := by
  have htop : bitField ir.toNat 12 4 = 0xF := (bitField_toNat_eq_div ir rfl).trans h
  exact (if_pos htop).trans (bitField_toNat_eq_div ir rfl)

theorem opkey_of_not_escape {ir : Word} (h : ir.toNat / 0x1000 ≠ 0xF) : opkey ir = ir.toNat / 0x1000 := by
  have htop : bitField ir.toNat 12 4 = ir.toNat / 0x1000 := bitField_toNat_eq_div ir rfl
  exact (if_neg (htop ▸ h)).trans htop

/-- Settles O5: either field ends at bit 15, so the key is a quotient of IR, and the ranges follow from IR < 0x10000. -/
theorem dispatchKeyOfIr : Obligations.DispatchKeyOfIr := by
  intro ir
  have hir : ir.toNat < 0x10000 := ir.isLt
  refine ⟨fun hesc => ?_, fun hesc => ?_⟩
  · rw [opkey_of_escape hesc]
    exact ⟨rfl, by omega, by omega⟩
  · rw [opkey_of_not_escape hesc]
    exact ⟨rfl, by omega⟩

end Sys2Proof.Machine
end

section
/-! PROOFS. What phase 3 computes, as an exact next state: the rows of the word in order (spec/41_engine_cycle.md R144,
R145) and the flags of the final result (spec/40_alu_shifter.md R130). -/

namespace Sys2Proof.Machine

/-! ### The values the three rows of phase 3 compute -/

/-- The A input that the word's AMUX row leaves in latchA (R145). -/
def State.inputA (s : State) (f : Micro) : Word := if f.amux = 1 then s.readReg Slot.mbr else s.latchA

/-- The value of the row that field ALU names, on its two inputs (R122 to R125). -/
def aluValue (alu : Nat) (a b : Word) : Word :=
  if alu = 0 then aluAdd a b else if alu = 1 then aluAnd a b else if alu = 2 then aluPass a else aluNot a

/-- The value of the row that field SH names on the ALU stage's output, in a machine that gives the row one (R126 to R129). -/
def shValue (sh : Nat) (w : Word) : Word :=
  if sh = 0 then shNone w else if sh = 1 then shSra1 w else if sh = 2 then shSll8 w else Config.shift3 w

/-- The final 16-bit result of phase 3: the selected A input and latchB through the ALU stage and the shift stage (R120). -/
def State.aluExecValue (s : State) (f : Micro) : Word := shValue f.sh (aluValue f.alu (s.inputA f) s.latchB)

theorem exec_amuxRow (f : Micro) (s : State) : exec f.amuxRow s = .next { s with latchA := s.inputA f } := by
  unfold Micro.amuxRow State.inputA
  split_ifs <;> rfl

theorem exec_aluRow (f : Micro) (s : State) :
    exec f.aluRow s = .next (s.aluStage (aluValue f.alu s.latchA s.latchB)) := by
  unfold Micro.aluRow aluValue
  split_ifs <;> rfl

/-- Where the SH row does not refuse, it finishes the phase: the result and both flags are written, whichever shift it is. -/
theorem exec_shRow (f : Micro) (s : State) (h : s.cfg.acceptShift3 = true ∨ f.sh < 3) :
    exec f.shRow s = .next (s.finishAlu (shValue f.sh s.aluResult)) := by
  unfold Micro.shRow shValue
  split_ifs with h0 h1 h2
  · rfl
  · rfl
  · rfl
  · have haccept : s.cfg.acceptShift3 = true := h.resolve_right (by omega)
    rw [exec_shReserved3, if_pos haccept]

theorem execAll_aluRows (f : Micro) (s : State) (h : s.cfg.acceptShift3 = true ∨ f.sh < 3) :
    execAll f.aluRows s = .next (State.finishAlu { s with latchA := s.inputA f } (s.aluExecValue f)) := by
  simp only [Micro.aluRows, execAll, exec_amuxRow, exec_aluRow, Result.andThen_next]
  rw [exec_shRow]
  · rfl
  · exact h

/-- Phase 3 where the SH row does not refuse: the exact next state. The flags are those of the result alone. -/
theorem step_aluExec (s : State) (hr : s.refused = none) (hp : s.phase = .aluExec)
    (h : s.cfg.acceptShift3 = true ∨ s.micro.sh < 3) :
    step s = .next { s with
      latchA := s.inputA s.micro
      aluResult := s.aluExecValue s.micro
      n := flagN (s.aluExecValue s.micro)
      z := flagZ (s.aluExecValue s.micro)
      phase := .writebackNext } := by
  have hphase : s.runPhase =
      .next (State.finishAlu { s with latchA := s.inputA s.micro } (s.aluExecValue s.micro)) := by
    simp [State.runPhase, hp, State.aluExec, execAll_aluRows s.micro s h, hr]
  rw [step_of_runPhase s _ hr hphase]
  simp [State.endStep, State.finishAlu, hr, hp, Phase.next]

/-! ### The flags -/

theorem flagZ_iff_toNat_eq_zero (v : Word) : flagZ v = true ↔ v.toNat = 0 := by
  rw [flagZ, beq_iff_eq, ← BitVec.toNat_inj]
  rfl

/-- Settles O17: the exact next state of phase 3 takes its flags from the result, and neither the result nor any other field of
it reads the flags of the state before. -/
theorem flagsFollowEveryResult : Obligations.FlagsFollowEveryResult := by
  intro s hr hp h
  have hsh : s.cfg.acceptShift3 = true ∨ s.micro.sh < 3 :=
    h.imp_right fun hne => Nat.lt_of_le_of_ne (Nat.le_of_lt_succ (bitField_lt s.mir.toNat 26 2)) hne
  exact ⟨_, step_aluExec s hr hp hsh, flagZ_iff_toNat_eq_zero _, Iff.rfl,
    fun n z => step_aluExec { s with n := n, z := z } hr hp hsh⟩

end Sys2Proof.Machine
end

section
/-! PROOFS. What one step does in phases 1, 2 and 4, as an exact next state, and the AMUX rows (spec/41_engine_cycle.md R141 to
R143, R145, R146). -/

namespace Sys2Proof.Machine

/-! ### The A-side select -/

theorem amuxRow_decode_eq_amuxMbr (w : Nat) : (decode w).amuxRow = .amuxMbr ↔ w.testBit 32 = true := by
  rw [← bitField_one, eq_comm, eq_amuxRow_iff]
  simp [decode]

theorem amuxRow_decode_eq_amuxA (w : Nat) : (decode w).amuxRow = .amuxA ↔ w.testBit 32 = false := by
  rw [← Bool.not_eq_true, ← bitField_one, eq_comm, eq_amuxRow_iff]
  simp [decode]

/-- Settles O13: the AMUX row is chosen by the field AMUX alone, which is bit 32, and `selectMbr` writes latchA alone. -/
theorem amuxRowsSelectInput : Obligations.AmuxRowsSelectInput :=
  ⟨fun w => ⟨amuxRow_decode_eq_amuxA w, amuxRow_decode_eq_amuxMbr w⟩, fun s => ⟨exec_amuxA s, exec_amuxMbr s⟩⟩

/-! ### The counter after a phase that does not refuse -/

/-- The end of R141: after a phase that keeps the mark and the counter, the counter moves on and nothing else is written. -/
theorem step_of_runPhase_kept (s t : State) (hr : s.refused = none) (hrun : s.runPhase = .next t)
    (hmark : t.refused = s.refused) (hphase : t.phase = s.phase) :
    step s = .next { t with phase := s.phase.next } := by
  rw [step_of_runPhase s t hr hrun]
  simp [State.endStep, hmark, hphase, hr]

/-! ### Phases 1 and 2 -/

theorem State.fetchMicro_populated (s : State) (w : MicroWord) (h : s.cfg.controlSlot s.mpc = some w) :
    s.fetchMicro = { s with mir := w } := by
  simp [State.fetchMicro, h]

theorem State.fetchMicro_empty (s : State) (h : s.cfg.controlSlot s.mpc = none) :
    s.fetchMicro = { s with mir := 0, faults := s.faults ++ [.unpopulatedControlStore s.mpc] } := by
  simp [State.fetchMicro, h, State.raise]

theorem step_fetchMicro (s : State) (hr : s.refused = none) (hp : s.phase = .fetchMicro) :
    step s = .next { s.fetchMicro with phase := .decodeRead } := by
  have hrun : s.runPhase = .next s.fetchMicro := by simp [State.runPhase, hp]
  rw [step_of_runPhase_kept s _ hr hrun s.fetchMicro_refused s.fetchMicro_phase, hp]
  rfl

theorem step_decodeRead (s : State) (hr : s.refused = none) (hp : s.phase = .decodeRead) :
    step s = .next { s.decodeRead s.micro with phase := .aluExec } := by
  have hrun : s.runPhase = .next (s.decodeRead s.micro) := by simp [State.runPhase, hp]
  rw [step_of_runPhase_kept s _ hr hrun rfl rfl, hp]
  rfl

/-- Settles O14: phase 1 is `fetchMicro` and the counter, and `fetchMicro` splits on whether the slot at MPC is populated. -/
theorem fetchLatchesWord : Obligations.FetchLatchesWord := by
  intro s hr hp
  refine ⟨fun w hslot => ?_, fun hslot => ?_⟩
  · rw [step_fetchMicro s hr hp, s.fetchMicro_populated w hslot]
  · rw [step_fetchMicro s hr hp, s.fetchMicro_empty hslot]

/-- Settles O15: phase 2 is `decodeRead` and the counter. -/
theorem decodeReadLatches : Obligations.DecodeReadLatches :=
  step_decodeRead

/-! ### Phase 4 -/

/-- A row that stands in the list only under an enable bit runs exactly when the bit is set, before the rows after it. -/
theorem execAll_enabled_append {enabled : Prop} [Decidable enabled] {bit : Bool} (hbit : enabled ↔ bit = true)
    {i : Instr} {rest : List Instr} {s t : State} (h : (if bit then exec i s else .next s) = .next t) :
    execAll ((if enabled then [i] else []) ++ rest) s = execAll rest t := by
  cases bit with
  | true =>
    rw [if_pos (hbit.mpr rfl), List.singleton_append, execAll, show exec i s = .next t from h, Result.andThen_next]
  | false =>
    rw [if_neg (by simp [hbit])]
    cases h
    rfl

theorem execAll_singleton (i : Instr) (s : State) : execAll [i] s = exec i s := by
  rw [execAll]
  cases exec i s <;> rfl

/-- A one-bit field of the word in MIR is set exactly when MIR's bit is. -/
theorem bitField_mir_eq_one (s : State) (lo : Nat) : bitField s.mir.toNat lo 1 = 1 ↔ s.mir.getLsbD lo = true :=
  bitField_one s.mir.toNat lo

/-- The operand of the ENC row is the field C as it stands in the word. -/
theorem ofNat_bitField_eq_extractLsb' (w : MicroWord) (lo k : Nat) :
    BitVec.ofNat k (bitField w.toNat lo k) = w.extractLsb' lo k := by
  apply BitVec.eq_of_toNat_eq
  simp [bitField]

/-- WRITEBACK_NEXT writes neither the mark nor the counter: its rows are enable rows and a COND row. -/
theorem State.writebackNext_keeps (s t : State) (f : Micro) (h : s.writebackNext f = .next t) :
    t.refused = s.refused ∧ t.phase = s.phase := by
  obtain ⟨u, henable, hcond⟩ := s.writebackNext_cases t f h
  have hu := execAll_enable_frame _ s u (Instr.isEnable_of_mem f) henable
  obtain ⟨e, -, ht⟩ := exec_cond_frame _ u t (Instr.isCond_condRow f) hcond
  rw [ht, hu]
  exact ⟨rfl, rfl⟩

theorem step_writebackNext (s t : State) (hr : s.refused = none) (hp : s.phase = .writebackNext)
    (h : s.writebackNext s.micro = .next t) : step s = .next { t with phase := .fetchMicro } := by
  obtain ⟨hmark, hphase⟩ := s.writebackNext_keeps t _ h
  have hrun : s.runPhase = .next t := by rw [← h]; simp [State.runPhase, hp]
  rw [step_of_runPhase_kept s t hr hrun hmark hphase, hp]
  rfl

/-- Settles O19: each enable row of the list is there exactly when its bit of MIR is set, so the list runs as the chain of
optional rows, and the COND row last. -/
theorem writebackRunsRowsInOrder : Obligations.WritebackRunsRowsInOrder := by
  intro s s1 s2 s3 s4 s5 t hr hp hmar hmbr henc hrd hwr hcond
  refine step_writebackNext s t hr hp ?_
  rw [← ofNat_bitField_eq_extractLsb'] at henc
  simp only [State.writebackNext, Micro.writebackRows, Micro.enableRows, List.append_assoc]
  calc execAll _ s
    _ = execAll _ s1 := execAll_enabled_append (bitField_mir_eq_one s 24) hmar
    _ = execAll _ s2 := execAll_enabled_append (bitField_mir_eq_one s 25) hmbr
    _ = execAll _ s3 := execAll_enabled_append (bitField_mir_eq_one s 21) henc
    _ = execAll _ s4 := execAll_enabled_append (bitField_mir_eq_one s 23) hrd
    _ = execAll [s.micro.condRow] s5 := execAll_enabled_append (bitField_mir_eq_one s 22) hwr
    _ = .next t := (execAll_singleton _ s5).trans hcond

end Sys2Proof.Machine
end

section
/-! PROOFS. The enable rows of phase 4: when a decoded word holds them, and the exact state each of them leaves
(spec/42_writeback_memory.md R170 to R174). -/

namespace Sys2Proof.Machine

/-! ### When a word holds an enable row -/

/-- An enable row is in a microinstruction through its own enable field alone: it is no row of the fields AMUX, ALU, SH and COND,
and not the whole-word row. -/
theorem mem_rows_of_isEnable (f : Micro) {i : Instr} (hi : Instr.IsEnable i) :
    i ∈ f.rows ↔ (f.mar = 1 ∧ i = .marw) ∨ (f.mbr = 1 ∧ i = .mbrw) ∨ (f.enc = 1 ∧ i = .enc (BitVec.ofNat 4 f.c)) ∨
      (f.rd = 1 ∧ i = .rd) ∨ (f.wr = 1 ∧ i = .wr) := by
  rw [mem_rows, eq_amuxRow_iff, eq_aluRow_iff, eq_shRow_iff, eq_condRow_iff]
  rcases hi with rfl | rfl | ⟨c, rfl⟩ | rfl | rfl <;> simp

theorem marw_mem_rows_decode (w : Nat) : .marw ∈ (decode w).rows ↔ w.testBit 24 = true := by
  rw [mem_rows_of_isEnable _ (by simp [Instr.IsEnable]), ← bitField_one]
  simp [decode]

theorem mbrw_mem_rows_decode (w : Nat) : .mbrw ∈ (decode w).rows ↔ w.testBit 25 = true := by
  rw [mem_rows_of_isEnable _ (by simp [Instr.IsEnable]), ← bitField_one]
  simp [decode]

theorem rd_mem_rows_decode (w : Nat) : .rd ∈ (decode w).rows ↔ w.testBit 23 = true := by
  rw [mem_rows_of_isEnable _ (by simp [Instr.IsEnable]), ← bitField_one]
  simp [decode]

theorem wr_mem_rows_decode (w : Nat) : .wr ∈ (decode w).rows ↔ w.testBit 22 = true := by
  rw [mem_rows_of_isEnable _ (by simp [Instr.IsEnable]), ← bitField_one]
  simp [decode]

/-- The operand of the ENC row is the field C, bits 20:17. -/
theorem eq_ofNat_bitField_c_iff (w : Nat) (c : RegIdx) :
    c = BitVec.ofNat 4 (bitField w 17 4) ↔ w / 2 ^ 17 % 16 = c.toNat := by
  rw [← BitVec.toNat_inj, BitVec.toNat_ofNat, Nat.mod_eq_of_lt (bitField_lt w 17 4), bitField, Nat.shiftRight_eq_div_pow]
  exact eq_comm

theorem enc_mem_rows_decode (w : Nat) (c : RegIdx) :
    .enc c ∈ (decode w).rows ↔ w.testBit 21 = true ∧ w / 2 ^ 17 % 16 = c.toNat := by
  rw [mem_rows_of_isEnable _ (by simp [Instr.IsEnable]), ← bitField_one, ← eq_ofNat_bitField_c_iff]
  simp [decode]

/-! ### MARW, MBRW and ENC -/

/-- Settles O20: each row is the register write to its own slot, which sets the one named register. -/
theorem latchEnablesWrite : Obligations.LatchEnablesWrite :=
  ⟨fun w => ⟨marw_mem_rows_decode w, mbrw_mem_rows_decode w⟩, fun s => ⟨exec_marw s, exec_mbrw s⟩⟩

theorem Slot.stores_iff_writable (i : RegIdx) : Slot.stores i = true ↔ Oracle.writable i := by
  simp [Slot.stores, Oracle.writable]

/-- R25: a write to a slot that stores nothing leaves the state as it was. -/
theorem State.writeReg_of_not_stores (s : State) (i : RegIdx) (v : Word) (h : Slot.stores i = false) :
    s.writeReg i v = s := by
  rw [State.writeReg, Regs.write_of_not_stores s.regs i v h]

/-- Settles O21: the row is one register write, which reads back at a writable slot and is dropped at any other. -/
theorem cBusWrite : Obligations.CBusWrite := by
  refine ⟨enc_mem_rows_decode, fun s c => ⟨_, exec_enc c s, rfl, fun hw => ?_, fun hw => ?_, fun j hj => ?_⟩⟩
  · rw [State.readReg_writeReg, if_pos ⟨rfl, (Slot.stores_iff_writable c).mpr hw⟩]
  · rw [← Slot.stores_iff_writable, Bool.not_eq_true] at hw
    exact s.writeReg_of_not_stores c _ hw
  · rw [State.readReg_writeReg, if_neg fun h => hj h.1]

/-! ### RD -/

/-- R59: a cache read writes the lines and nothing else. -/
theorem State.cacheRead_eq_with_lines (s : State) (a : Nat) :
    (s.cacheRead a).2.2 = { s with lines := (s.cacheRead a).2.2.lines } := by
  cases hhit : s.cacheHit a with
  | true => rw [s.cacheRead_hit a hhit]
  | false => rw [s.cacheRead_miss a hhit]

/-- R65: in a state that meets the invariant a cache read returns the memory word. -/
theorem State.cacheRead_value_of_inv (s : State) (a : Nat) (h : s.Inv) : (s.cacheRead a).1 = s.memRead a := by
  obtain ⟨⟨-, hblock, hcache, -⟩, -, hform, hcoh, -⟩ := h
  exact s.cacheRead_value a hblock hcache hform hcoh

/-- R173: the exact next state of RD. -/
theorem exec_rd_eq (s : State) : exec .rd s = .next { s with
    regs := { s.regs with mbr := (s.cacheRead s.regs.mar.toNat).1 }
    lines := (s.cacheRead s.regs.mar.toNat).2.2.lines } := by
  rw [exec_rd, s.cacheRead_eq_with_lines]
  rfl

/-- Settles O22: RD writes MBR and the lines, so memory reads as before; at or above MEMORY_SIZE the word CacheRead gives is
the memory read, which is 0 there. -/
theorem readRowLoadsMbr : Obligations.ReadRowLoadsMbr := by
  refine ⟨rd_mem_rows_decode, fun s => ⟨_, exec_rd_eq s, rfl, fun a => ?_, fun hinv hle => ?_⟩⟩
  · exact State.memRead_congr _ _ rfl rfl a
  · exact (s.cacheRead_value_of_inv _ hinv).trans (s.memRead_of_le hle)

/-! ### WR -/

/-- R60: a cache write writes memory and lines and nothing else. -/
theorem State.cacheWrite_eq_with_mem_lines (s : State) (a : Nat) (v : Word) :
    (s.cacheWrite a v).2 = { s with mem := (s.cacheWrite a v).2.mem, lines := (s.cacheWrite a v).2.lines } := by
  simp only [State.cacheWrite]
  rw [s.memWrite_eq_with_mem a v]
  split <;> rfl

/-- R60: a cache write at or above MEMORY_SIZE changes nothing, on a hit too. -/
theorem State.cacheWrite_of_le (s : State) {a : Nat} (v : Word) (h : s.cfg.memorySize ≤ a) : (s.cacheWrite a v).2 = s := by
  have hnot : ¬ a < s.cfg.memorySize := Nat.not_lt_of_le h
  simp [State.cacheWrite, State.memWrite, hnot]

/-- Settles O24: WR is the cache write of MBR at MAR, which stores to memory as a memory write does and, on a hit to a backed
address, stores the word in the line. -/
theorem writeRowStoresMbr : Obligations.WriteRowStoresMbr := by
  refine ⟨wr_mem_rows_decode, fun s => ⟨_, exec_wr s, s.cacheWrite_eq_with_mem_lines _ _, fun hmem hlt => ?_,
    fun a ha => ?_, fun hle => s.cacheWrite_of_le _ hle, s.cacheWrite_lines _ _⟩⟩
  · rw [s.memRead_cacheWrite, s.memRead_memWrite _ _ _ hmem.1, if_pos ⟨rfl, hlt⟩]
  · rw [s.memRead_cacheWrite, s.memRead_memWrite_ne _ _ _ ha]

end Sys2Proof.Machine
end

section
/-! PROOFS. The COND rows, step 6 of phase 4: their bits in a word and where each of them sends MPC (spec/43_next_address.md R190
to R193). -/

namespace Sys2Proof.Machine

/-! ### When a word holds a COND row -/

/-- A two-bit field takes a value exactly when its two bits are that value's. -/
theorem bitField_two_eq_iff (w lo : Nat) (b1 b0 : Bool) :
    bitField w lo 2 = 2 * b1.toNat + b0.toNat ↔ w.testBit (lo + 1) = b1 ∧ w.testBit lo = b0 := by
  have hfield : bitField w lo 2 = 2 * (w.testBit (lo + 1)).toNat + (w.testBit lo).toNat := by
    have hhigh : w / 2 ^ (lo + 1) = w / 2 ^ lo / 2 := by rw [Nat.pow_succ, Nat.div_div_eq_div_mul]
    rw [bitField, Nat.shiftRight_eq_div_pow, Nat.toNat_testBit, Nat.toNat_testBit, hhigh]
    omega
  have hbits : ∀ c1 c0 b1 b0 : Bool, 2 * c1.toNat + c0.toNat = 2 * b1.toNat + b0.toNat ↔ c1 = b1 ∧ c0 = b0 := by decide
  rw [hfield, hbits]

/-- The COND field is bits 31:30. -/
theorem cond_decode_eq_iff (w : Nat) (b31 b30 : Bool) :
    (decode w).cond = 2 * b31.toNat + b30.toNat ↔ w.testBit 31 = b31 ∧ w.testBit 30 = b30 :=
  bitField_two_eq_iff w 30 b31 b30

/-- The address a row of COND 0, 1 or 2 carries is the field ADDR, bits 8:0. -/
theorem cond_addr_decode_iff (w : Nat) (a : MicroAddr) (b31 b30 : Bool) :
    a = BitVec.ofNat 9 (decode w).addr ∧ (decode w).cond = 2 * b31.toNat + b30.toNat ↔
      w.testBit 31 = b31 ∧ w.testBit 30 = b30 ∧ w % 512 = a.toNat := by
  have haddr : a = BitVec.ofNat 9 (decode w).addr ↔ w % 512 = a.toNat := Laws.RowMatch.addr_operand w a
  rw [haddr, cond_decode_eq_iff, and_comm, and_assoc]

theorem condRow_decode_eq_condNo (w : Nat) (a : MicroAddr) :
    (decode w).condRow = .condNo a ↔ w.testBit 31 = false ∧ w.testBit 30 = false ∧ w % 512 = a.toNat := by
  rw [← cond_addr_decode_iff w a false false, eq_comm, eq_condRow_iff]
  simp

theorem condRow_decode_eq_condJamn (w : Nat) (a : MicroAddr) :
    (decode w).condRow = .condJamn a ↔ w.testBit 31 = false ∧ w.testBit 30 = true ∧ w % 512 = a.toNat := by
  rw [← cond_addr_decode_iff w a false true, eq_comm, eq_condRow_iff]
  simp

theorem condRow_decode_eq_condJamz (w : Nat) (a : MicroAddr) :
    (decode w).condRow = .condJamz a ↔ w.testBit 31 = true ∧ w.testBit 30 = false ∧ w % 512 = a.toNat := by
  rw [← cond_addr_decode_iff w a true false, eq_comm, eq_condRow_iff]
  simp

/-- The row of the COND values left over by the other three is that of the value 3, for the field has two bits. -/
theorem condRow_decode_eq_condDecode (w : Nat) :
    (decode w).condRow = .condDecode ↔ w.testBit 31 = true ∧ w.testBit 30 = true := by
  have hcond : (decode w).cond < 4 := bitField_lt w 30 2
  have hthree : (decode w).cond ≠ 0 ∧ (decode w).cond ≠ 1 ∧ (decode w).cond ≠ 2 ↔ (decode w).cond = 3 := by omega
  rw [← cond_decode_eq_iff, eq_comm, eq_condRow_iff, hthree]
  simp

/-! ### COND_NO -/

/-- Settles O32: the row is `goTo`, which writes MPC alone. -/
theorem condNoGoesToAddr : Obligations.CondNoGoesToAddr :=
  ⟨condRow_decode_eq_condNo, fun s a => exec_condNo a s⟩

/-! ### COND_JAMN and COND_JAMZ -/

theorem toNat_jamTarget (a : MicroAddr) (flag : Bool) :
    (jamTarget a flag).toNat = Nat.lor a.toNat (if flag then 0x100 else 0) := by
  cases flag <;> exact BitVec.toNat_or _ _

/-- The corner of R191 and R192: an ADDR with bit 8 set is the target whatever the flag, for the OR sets no other bit. -/
theorem jamTarget_of_getLsbD_8 {a : MicroAddr} (h : a.getLsbD 8 = true) (flag : Bool) : jamTarget a flag = a := by
  cases flag with
  | false => exact BitVec.or_zero
  | true =>
    have hbit : (0x100 : MicroAddr) = BitVec.twoPow 9 8 := rfl
    apply BitVec.eq_of_getLsbD_eq
    intro i hi
    rw [jamTarget, if_pos rfl, hbit, BitVec.getLsbD_or, BitVec.getLsbD_twoPow]
    by_cases hi8 : 8 = i
    · rw [← hi8, h, Bool.true_or]
    · simp [hi8]

/-- Settles O33: each row is `goTo` the JAM target of the flag it tests. -/
theorem jamBranchesOnFlag : Obligations.JamBranchesOnFlag :=
  ⟨fun w a => ⟨condRow_decode_eq_condJamn w a, condRow_decode_eq_condJamz w a⟩, fun s a =>
    ⟨⟨_, exec_condJamn a s, rfl, toNat_jamTarget a s.n, fun h => jamTarget_of_getLsbD_8 h s.n⟩,
      ⟨_, exec_condJamz a s, rfl, toNat_jamTarget a s.z, fun h => jamTarget_of_getLsbD_8 h s.z⟩⟩⟩

/-! ### COND_DECODE -/

/-- Settles O34: the row is `goTo` the mapped address, or the fault's record and `goTo` the fetch entry. -/
theorem decodeDispatches : Obligations.DecodeDispatches :=
  ⟨condRow_decode_eq_condDecode, fun s => ⟨exec_condDecode_mapped s, exec_condDecode_unmapped s⟩⟩

end Sys2Proof.Machine
end

section
/-! PROOFS. The two recoverable faults (spec/60_exceptions.md R211, R212): the microcycle of the all-zero word that an empty slot
gives, and phase 4 as its enable rows and then its COND row. -/

namespace Sys2Proof.Machine

/-! ### Phase 4 -/

/-- The COND row acts on the state the enable rows leave. -/
theorem State.writebackNext_of_enableRows (s t : State) (f : Micro) (h : execAll f.enableRows s = .next t) :
    s.writebackNext f = exec f.condRow t := by
  rw [State.writebackNext, Micro.writebackRows, execAll_append, h, Result.andThen_next, execAll_singleton]

/-! ### The all-zero word, phase by phase -/

theorem State.micro_of_mir_zero (s : State) (h : s.mir = 0) : s.micro = {} := by
  rw [State.micro, h]
  rfl

/-- Fields A and B of the all-zero word name slot 0, which reads 0. -/
theorem step_decodeRead_of_micro_zero (s : State) (hr : s.refused = none) (hp : s.phase = .decodeRead) (hm : s.micro = {}) :
    step s = .next { s with latchA := 0, latchB := 0, phase := .aluExec } := by
  rw [step_decodeRead s hr hp, hm]
  rfl

/-- The all-zero word adds its latches unshifted, so latches of 0 give the result 0 and its flags. -/
theorem step_aluExec_of_micro_zero (s : State) (hr : s.refused = none) (hp : s.phase = .aluExec) (hm : s.micro = {})
    (ha : s.latchA = 0) (hb : s.latchB = 0) :
    step s = .next { s with aluResult := 0, n := false, z := true, phase := .writebackNext } := by
  have hvalue : s.aluExecValue {} = 0 := by
    change aluAdd s.latchA s.latchB = 0
    rw [ha, hb]
    rfl
  have hinput : s.inputA {} = s.latchA := rfl
  have hsh : s.micro.sh < 3 := by rw [hm]; decide
  rw [step_aluExec s hr hp (.inr hsh), hm, hvalue, hinput]
  rfl

/-- The all-zero word sets no enable, and its next address is ADDR = 0. -/
theorem step_writebackNext_of_micro_zero (s : State) (hr : s.refused = none) (hp : s.phase = .writebackNext)
    (hm : s.micro = {}) : step s = .next { s with mpc := 0, phase := .fetchMicro } := by
  have hrun : s.writebackNext s.micro = .next (s.goTo 0) := by
    rw [hm, s.writebackNext_of_enableRows s {} rfl]
    rfl
  rw [step_writebackNext s _ hr hp hrun]
  rfl

/-- R86: the phases 2 to 4 of the all-zero word are the action of its own row, with the counter back at phase 1. -/
theorem run_three_of_mir_zero (s : State) (hr : s.refused = none) (hp : s.phase = .decodeRead) (hm : s.mir = 0) :
    run 3 s = exec .nopAllZero { s with phase := .fetchMicro } := by
  have hmicro : s.micro = {} := s.micro_of_mir_zero hm
  have hread := step_decodeRead_of_micro_zero s hr hp hmicro
  have halu := step_aluExec_of_micro_zero { s with latchA := 0, latchB := 0, phase := .aluExec } hr rfl hmicro rfl rfl
  have hnext := step_writebackNext_of_micro_zero
    { s with latchA := 0, latchB := 0, aluResult := 0, n := false, z := true, phase := .writebackNext } hr rfl hmicro
  rw [run_succ 2 _ _ hread, run_succ 1 _ _ halu, run_succ 0 _ _ hnext, exec_nopAllZero, run]

/-- Settles O36: the fetch at an empty slot records the fault and leaves the all-zero word in MIR, and the three steps after it
are that word's row. -/
theorem emptySlotRecovers : Obligations.EmptySlotRecovers := by
  intro s hr hp hslot
  have hfetch := (fetchLatchesWord s hr hp).2 hslot
  have hword := run_three_of_mir_zero { s with
    mir := 0, faults := s.faults ++ [.unpopulatedControlStore s.mpc], phase := .decodeRead } hr rfl rfl
  rw [run_succ 3 s _ hfetch, hword, exec_nopAllZero, hp]

/-! ### COND = 3 at an unmapped key -/

/-- Settles O37: phase 4 runs the COND row on the state the enable rows leave, and that row records the fault and writes MPC; the
enable rows have not touched the log. -/
theorem unmappedOpcodeRecovers : Obligations.UnmappedOpcodeRecovers := by
  intro s t hr hp hcond henable hunmapped
  have hframe : t = { s with regs := t.regs, mem := t.mem, lines := t.lines } :=
    execAll_enable_frame _ s t (Instr.isEnable_of_mem _) henable
  have hfaults : t.faults = s.faults := by rw [hframe]
  have hkey : t.cfg.mapped (opkey t.regs.ir) = none := by rw [hframe]; exact hunmapped
  have hrow : s.micro.condRow = .condDecode := by simp [Micro.condRow, State.micro, hcond]
  have hrun : s.writebackNext s.micro = .next ((t.raise (.unmappedOpcode t.regs.ir (opkey t.regs.ir))).goTo 0) := by
    rw [s.writebackNext_of_enableRows t s.micro henable, hrow, exec_condDecode_unmapped t hkey]
  rw [step_writebackNext s _ hr hp hrun, ← hfaults]
  rfl

end Sys2Proof.Machine
end

section
/-! PROOFS. The codec laws (spec/30_encoding.md R82 to R84): the fields of an OR of shifted fields, and a word as the OR of its
fields. -/

namespace Sys2Proof

/-! ### The fields of an encoded record -/

theorem bitField_or (x y lo k : Nat) : bitField (x ||| y) lo k = bitField x lo k ||| bitField y lo k := by
  simp [bitField, Nat.shiftRight_or_distrib, Nat.or_mod_two_pow]

/-- A field that stands at its own place is read back, cut to its width. -/
theorem bitField_shiftLeft_self (v lo k : Nat) : bitField (maskTo k v <<< lo) lo k = maskTo k v := by
  simp [bitField, maskTo]

/-- A field that ends below another is not seen there. -/
theorem bitField_shiftLeft_below (v n p lo k : Nat) (h : p + n ≤ lo) : bitField (maskTo n v <<< p) lo k = 0 := by
  rw [bitField_eq_zero]
  intro i _
  simp only [maskTo, Nat.testBit_shiftLeft, Nat.testBit_mod_two_pow]
  have hout : ¬ lo + i - p < n := by omega
  simp [hout]

/-- A field that starts above another is not seen there. -/
theorem bitField_shiftLeft_above (v n p lo k : Nat) (h : lo + k ≤ p) : bitField (maskTo n v <<< p) lo k = 0 := by
  rw [bitField_eq_zero]
  intro i hi
  have hout : ¬ p ≤ lo + i := by omega
  simp [Nat.testBit_shiftLeft, hout]

/-- R84: the fields of the OR are the record's, cut to their widths, for no two of them overlap. -/
theorem decode_encode (f : Micro) : decode (encode f) = f.masked := by
  have haddr : maskTo 9 f.addr = maskTo 9 f.addr <<< 0 := rfl
  rw [encode, haddr]
  simp [decode, Micro.masked, bitField_or, bitField_shiftLeft_self, bitField_shiftLeft_below, bitField_shiftLeft_above,
    -Nat.shiftLeft_zero]

theorem Micro.masked_of_wellFormed (f : Micro) (h : f.WellFormed) : f.masked = f := by
  obtain ⟨hamux, hcond, halu, hsh, hmbr, hmar, hrd, hwr, henc, hc, hb, ha, haddr⟩ := h
  simp [Micro.masked, maskTo, Nat.mod_eq_of_lt, *]

/-! ### A word from its fields -/

/-- A field and the bits below it are the bits up to its end. -/
theorem bitField_shiftLeft_or_low (w lo k : Nat) :
    bitField w lo k <<< lo ||| bitField w 0 lo = bitField w 0 (lo + k) := by
  apply Nat.eq_of_testBit_eq
  intro i
  simp only [Nat.testBit_or, Nat.testBit_shiftLeft, testBit_bitField, Nat.zero_add]
  by_cases hi : lo ≤ i
  · have hlow : ¬ i < lo := by omega
    have hin : i - lo < k ↔ i < lo + k := by omega
    simp [hi, hlow, hin]
  · have hlow : i < lo + k := by omega
    simp [hi, hlow, Nat.lt_of_not_le hi]

theorem maskTo_bitField (w lo k : Nat) : maskTo k (bitField w lo k) = bitField w lo k :=
  Nat.mod_eq_of_lt (bitField_lt w lo k)

/-- R84: a word is put together again from the lowest field up. -/
theorem encode_decode (w : Nat) : encode (decode w) = w % 2 ^ 33 := by
  simp only [encode, decode, maskTo_bitField, Nat.lor_assoc, bitField_shiftLeft_or_low, Nat.reduceAdd]
  rfl

/-- R83: a field within the low bits does not see the bits above them. -/
theorem bitField_mod_two_pow (w lo k n : Nat) (h : lo + k ≤ n) : bitField (w % 2 ^ n) lo k = bitField w lo k := by
  apply Nat.eq_of_testBit_eq
  intro i
  simp only [testBit_bitField, Nat.testBit_mod_two_pow]
  by_cases hi : i < k
  · have hin : lo + i < n := by omega
    simp [hin]
  · simp [hi]

theorem decode_mod_two_pow (w : Nat) : decode (w % 2 ^ 33) = decode w := by
  simp [decode, bitField_mod_two_pow, -Nat.reducePow]

/-- Settles O1: the fields of the encoded OR are the record's own, and the word is the OR of its fields. -/
theorem codecRoundTrip : Obligations.CodecRoundTrip :=
  ⟨fun f h => (decode_encode f).trans (f.masked_of_wellFormed h), decode_encode, encode_decode,
    fun w => (decode_mod_two_pow w).symm⟩

/-- Settles O4: each listed word is decoded field by field. -/
theorem listedWordsDecode : Obligations.ListedWordsDecode := by
  unfold Obligations.ListedWordsDecode
  decide

end Sys2Proof
end

section
/-! PROOFS. The invariant over one step: what each row does to the parameters, the memory and the lines, and that it keeps the
forms and the coherence (spec/20_memory.md R65, spec/10_state.md R36, R37, R39). -/

namespace Sys2Proof.Machine

/-! ### The part of the invariant that speaks of parameters, memory and lines -/

/-- The invariant without the refusal mark's clause: what rows can be asked to keep, for they run inside one phase. -/
def State.DataInv (s : State) : Prop := s.cfg.WellFormed ∧ s.MemoryWellFormed ∧ s.CacheWellFormed ∧ s.Coherent

theorem State.inv_iff (s : State) : s.Inv ↔ s.DataInv ∧ s.RefusedAtAlu := by
  simp only [State.Inv, State.DataInv, and_assoc]

theorem State.Inv.dataInv {s : State} (h : s.Inv) : s.DataInv := (s.inv_iff.mp h).1

theorem State.dataInv_congr {s t : State} (hcfg : t.cfg = s.cfg) (hmem : t.mem = s.mem) (hlines : t.lines = s.lines) :
    t.DataInv ↔ s.DataInv := by
  cases s; cases t; cases hcfg; cases hmem; cases hlines
  exact Iff.rfl

theorem State.DataInv.cacheRead_value {s : State} (h : s.DataInv) (a : Nat) : (s.cacheRead a).1 = s.memRead a := by
  obtain ⟨⟨-, hblock, hcache, -⟩, -, hform, hcoh⟩ := h
  exact s.cacheRead_value a hblock hcache hform hcoh

theorem State.DataInv.cacheRead {s : State} (h : s.DataInv) (a : Nat) : (s.cacheRead a).2.2.DataInv := by
  obtain ⟨hcfg, hmem, hform, hcoh⟩ := h
  have ⟨_, _, hcache, _⟩ := hcfg
  exact ⟨by simpa using hcfg, by simpa [State.MemoryWellFormed] using hmem, s.cacheWellFormed_cacheRead a hform,
    s.coherent_cacheRead a hcache hform hcoh⟩

theorem State.DataInv.cacheWrite {s : State} (h : s.DataInv) (a : Nat) (v : Word) : (s.cacheWrite a v).2.DataInv := by
  obtain ⟨hcfg, hmem, hform, hcoh⟩ := h
  have ⟨_, hblock, hcache, _⟩ := hcfg
  exact ⟨by simpa using hcfg, s.memoryWellFormed_cacheWrite a v hmem, s.cacheWellFormed_cacheWrite a v hcache hform,
    s.coherent_cacheWrite a v hblock hcache hmem.1 hform hcoh⟩

/-! ### Rows -/

/-- Only RD and WR reach the cache; every other row leaves parameters, memory and lines as they were. -/
theorem exec_data_frame {i : Instr} {s t : State} (h : exec i s = .next t) (hrd : i ≠ .rd) (hwr : i ≠ .wr) :
    t.cfg = s.cfg ∧ t.mem = s.mem ∧ t.lines = s.lines := by
  have alu (hi : Instr.InAlu i) : t.cfg = s.cfg ∧ t.mem = s.mem ∧ t.lines = s.lines := by
    rw [exec_alu_frame i s t hi h]; exact ⟨rfl, rfl, rfl⟩
  have cond (hi : Instr.IsCond i) : t.cfg = s.cfg ∧ t.mem = s.mem ∧ t.lines = s.lines := by
    obtain ⟨e, -, ht⟩ := exec_cond_frame i s t hi h
    rw [ht]; exact ⟨rfl, rfl, rfl⟩
  cases i
  case rd => exact absurd rfl hrd
  case wr => exact absurd rfl hwr
  case marw | mbrw | enc => cases h; exact ⟨rfl, rfl, rfl⟩
  case nopAllZero => rw [exec_nopAllZero] at h; cases h; exact ⟨rfl, rfl, rfl⟩
  case condNo | condJamn | condJamz | condDecode => exact cond (by simp [Instr.IsCond])
  all_goals exact alu (by simp [Instr.InAlu])

theorem exec_keeps_dataInv {i : Instr} {s t : State} (h : exec i s = .next t) (hs : s.DataInv) : t.DataInv := by
  by_cases hrd : i = .rd
  · subst hrd; cases h
    exact (State.dataInv_congr rfl rfl rfl).mpr (hs.cacheRead s.regs.mar.toNat)
  by_cases hwr : i = .wr
  · subst hwr; cases h
    exact hs.cacheWrite _ _
  obtain ⟨hcfg, hmem, hlines⟩ := exec_data_frame h hrd hwr
  exact (State.dataInv_congr hcfg hmem hlines).mpr hs

theorem execAll_keeps_dataInv {is : List Instr} {s t : State} (h : execAll is s = .next t) (hs : s.DataInv) :
    t.DataInv := by
  induction is generalizing s with
  | nil => cases h; exact hs
  | cons i is ih =>
    obtain ⟨u, hu, h⟩ := Result.andThen_eq_next _ _ _ h
    exact ih h (exec_keeps_dataInv hu hs)

/-! ### One step -/

/-- A step keeps parameters, memory and lines in phases 1 to 3, and in phase 4 it runs rows. -/
theorem step_keeps_dataInv {s t : State} (h : step s = .next t) (hs : s.DataInv) : t.DataInv := by
  have hend (v : State) (hv : v.DataInv) : v.endStep.DataInv :=
    (State.dataInv_congr (by simp) (by simp) (by simp)).mpr hv
  obtain ⟨-, rfl⟩ | ⟨-, -, rfl⟩ | ⟨-, -, rfl⟩ | ⟨-, -, u, hu, rfl⟩ | ⟨-, -, u, v, hu, hv, rfl⟩ :=
    step_cases s t h
  · exact hs
  · exact hend _ ((State.dataInv_congr (by simp) (by simp) (by simp)).mpr hs)
  · exact hend _ ((State.dataInv_congr rfl rfl rfl).mpr hs)
  · refine hend _ ?_
    split
    · exact (State.dataInv_congr rfl rfl rfl).mpr hs
    · exact execAll_keeps_dataInv hu hs
  · exact hend _ (exec_keeps_dataInv hv (execAll_keeps_dataInv hu hs))

theorem State.endStep_of_not_refused {s : State} (h : s.refused = none) : s.endStep = { s with phase := s.phase.next } := by
  simp [State.endStep, h]

theorem State.endStep_of_refused {s : State} (h : s.refused ≠ none) : s.endStep = s :=
  if_pos (Option.isSome_iff_ne_none.mpr h)

/-- What a step does to the mark and the counter: a refused state stays; else the counter moves on and no mark is set, or
phase 3 refuses, which sets the mark and nothing else. -/
theorem step_mark_cases {s t : State} (h : step s = .next t) :
    (s.refused ≠ none ∧ t = s) ∨
    (s.refused = none ∧ t.refused = none ∧ t.phase = s.phase.next) ∨
    (s.refused = none ∧ s.phase = .aluExec ∧ t.refused ≠ none ∧ t = { s with refused := t.refused }) := by
  have moved {v : State} (hr : v.refused = none) (hp : v.phase = s.phase) (ht : t = v.endStep) :
      t.refused = none ∧ t.phase = s.phase.next := by
    rw [ht, State.endStep_of_not_refused hr, hp]; exact ⟨hr, rfl⟩
  obtain h | ⟨hr, -, ht⟩ | ⟨hr, -, ht⟩ | ⟨hr, hp, u, hu, ht⟩ | ⟨hr, -, u, v, hu, hv, ht⟩ := step_cases s t h
  · exact .inl h
  · exact .inr (.inl ⟨hr, moved (s.fetchMicro_refused.trans hr) s.fetchMicro_phase ht⟩)
  · exact .inr (.inl ⟨hr, moved (v := s.decodeRead s.micro) hr rfl ht⟩)
  · by_cases hur : u.refused = none
    · have hphase : u.phase = s.phase := by rw [execAll_alu_frame _ s u (Instr.inAlu_of_mem _) hu]
      rw [hur, if_neg (by simp)] at ht
      exact .inr (.inl ⟨hr, moved hur hphase ht⟩)
    · rw [if_pos (Option.isSome_iff_ne_none.mpr hur)] at ht
      have hstay : t = { s with refused := u.refused } := ht.trans (State.endStep_of_refused hur)
      rw [hstay]
      exact .inr (.inr ⟨hr, hp, hur, rfl⟩)
  · have hwb : s.writebackNext s.micro = .next v := (s.writebackNext_of_enableRows u _ hu).trans hv
    obtain ⟨hmark, hphase⟩ := s.writebackNext_keeps v _ hwb
    exact .inr (.inl ⟨hr, moved (hmark.trans hr) hphase ht⟩)

/-- Settles O50: the rows keep the data part, and a mark appears only where phase 3 sets it without moving on. -/
theorem stepKeepsInvariant : Obligations.StepKeepsInvariant := by
  intro s t hinv h
  refine t.inv_iff.mpr ⟨step_keeps_dataInv h hinv.dataInv, fun hmark => ?_⟩
  obtain ⟨-, rfl⟩ | ⟨-, hnone, -⟩ | ⟨-, hp, -, ht⟩ := step_mark_cases h
  · exact (t.inv_iff.mp hinv).2 hmark
  · exact absurd hnone hmark
  · rw [ht]; exact hp

/-- Settles O43: the three cases of the mark and the counter. -/
theorem phaseCounterCycles : Obligations.PhaseCounterCycles := by
  intro s t h
  obtain ⟨hr, rfl⟩ | ⟨-, hnone, hp⟩ | ⟨-, -, hmark, ht⟩ := step_mark_cases h
  · exact ⟨fun hnone => absurd hnone hr, fun _ => rfl⟩
  · refine ⟨fun _ => ?_, fun hmark => absurd hnone hmark⟩
    rw [hp]
    cases s.phase <;> rfl
  · exact ⟨fun hnone => absurd hnone hmark, fun _ => by rw [ht]⟩

theorem Phase.next_ne (p : Phase) : p.next ≠ p := by
  cases p <;> decide

/-- Settles O42: a step without a mark before it moves the counter or sets the mark, so its next state differs. -/
theorem engineNeverStops : Obligations.EngineNeverStops := by
  refine ⟨step_next, fun s => ⟨fun h => ?_, step_of_refused s⟩⟩
  obtain ⟨hr, -⟩ | ⟨-, -, hp⟩ | ⟨-, -, hmark, -⟩ := step_mark_cases h
  · exact hr
  · exact absurd hp.symm s.phase.next_ne
  · exact hmark

end Sys2Proof.Machine
end

section
/-! PROOFS. Values never expose the cache (spec/20_memory.md R65): two states that meet the invariant and differ in their lines
alone go on differing in them alone. -/

namespace Sys2Proof.Machine

/-- The state with other cache lines. -/
abbrev State.withLines (s : State) (ls : List CacheLine) : State := { s with lines := ls }

/-! ### Rows -/

/-- RD loads the memory word on either side, for both caches are coherent with the one memory (R65). -/
theorem exec_rd_withLines {s t : State} {ls : List CacheLine} (h : exec .rd s = .next t) (hs : s.DataInv)
    (hls : (s.withLines ls).DataInv) : ∃ ls', exec .rd (s.withLines ls) = .next (t.withLines ls') := by
  rw [exec_rd_eq, hs.cacheRead_value, Host.Outcome.next.injEq] at h
  rw [exec_rd_eq, hls.cacheRead_value, ← h]
  exact ⟨_, rfl⟩

theorem State.memWrite_withLines_mem (s : State) (ls : List CacheLine) (a : Nat) (v : Word) :
    ((s.withLines ls).memWrite a v).mem = (s.memWrite a v).mem := by
  simp only [State.memWrite]
  split <;> rfl

/-- WR stores to memory whatever the lines are. -/
theorem exec_wr_withLines {s t : State} (ls : List CacheLine) (h : exec .wr s = .next t) :
    ∃ ls', exec .wr (s.withLines ls) = .next (t.withLines ls') := by
  rw [exec_wr, s.cacheWrite_eq_with_mem_lines, s.cacheWrite_mem, Host.Outcome.next.injEq] at h
  rw [exec_wr, State.cacheWrite_eq_with_mem_lines, State.cacheWrite_mem, s.memWrite_withLines_mem, ← h]
  exact ⟨_, rfl⟩

/-- A row other than RD and WR neither reads nor writes the lines. -/
theorem exec_withLines_of_ne {i : Instr} {s t : State} (ls : List CacheLine) (h : exec i s = .next t) (hrd : i ≠ .rd)
    (hwr : i ≠ .wr) : exec i (s.withLines ls) = .next (t.withLines ls) := by
  cases i
  case rd => exact absurd rfl hrd
  case wr => exact absurd rfl hwr
  case condDecode =>
    cases hm : s.cfg.mapped (opkey s.regs.ir) with
    | some a => rw [exec_condDecode_mapped s a hm] at h; cases h; exact exec_condDecode_mapped (s.withLines ls) a hm
    | none => rw [exec_condDecode_unmapped s hm] at h; cases h; exact exec_condDecode_unmapped (s.withLines ls) hm
  case shReserved3 => cases h; rw [exec_shReserved3]; dsimp only; split <;> rfl
  all_goals cases h; rfl

theorem exec_withLines {i : Instr} {s t : State} {ls : List CacheLine} (h : exec i s = .next t) (hs : s.DataInv)
    (hls : (s.withLines ls).DataInv) : ∃ ls', exec i (s.withLines ls) = .next (t.withLines ls') := by
  by_cases hrd : i = .rd
  · subst hrd; exact exec_rd_withLines h hs hls
  by_cases hwr : i = .wr
  · subst hwr; exact exec_wr_withLines ls h
  exact ⟨ls, exec_withLines_of_ne ls h hrd hwr⟩

theorem execAll_withLines {is : List Instr} {s t : State} {ls : List CacheLine} (h : execAll is s = .next t)
    (hs : s.DataInv) (hls : (s.withLines ls).DataInv) :
    ∃ ls', execAll is (s.withLines ls) = .next (t.withLines ls') := by
  induction is generalizing s ls with
  | nil => cases h; exact ⟨ls, rfl⟩
  | cons i is ih =>
    obtain ⟨u, hu, h⟩ := Result.andThen_eq_next _ _ _ h
    obtain ⟨ls', hu'⟩ := exec_withLines hu hs hls
    obtain ⟨ls'', h'⟩ := ih h (exec_keeps_dataInv hu hs) (exec_keeps_dataInv hu' hls)
    exact ⟨ls'', by rw [execAll, hu', Result.andThen_next, h']⟩

/-! ### Steps -/

theorem State.endStep_withLines (s : State) (ls : List CacheLine) : (s.withLines ls).endStep = s.endStep.withLines ls := by
  simp only [State.endStep]
  split <;> rfl

theorem State.fetchMicro_withLines (s : State) (ls : List CacheLine) :
    (s.withLines ls).fetchMicro = s.fetchMicro.withLines ls := by
  simp only [State.fetchMicro]
  split <;> rfl

/-- Phase 3 keeps what its rows did, or, where they refused, the mark alone. -/
theorem State.aluExec_withLines {s t : State} {f : Micro} {ls : List CacheLine} (h : s.aluExec f = .next t)
    (hs : s.DataInv) (hls : (s.withLines ls).DataInv) : ∃ ls', (s.withLines ls).aluExec f = .next (t.withLines ls') := by
  obtain ⟨u, hu, h⟩ := Result.andThen_eq_next _ _ _ h
  obtain ⟨ls', hu'⟩ := execAll_withLines hu hs hls
  rw [State.aluExec, hu', Result.andThen_next]
  cases h
  by_cases hr : u.refused.isSome
  · exact ⟨ls, by simp [hr]⟩
  · exact ⟨ls', by simp [hr]⟩

theorem State.runPhase_withLines {s t : State} {ls : List CacheLine} (h : s.runPhase = .next t) (hs : s.DataInv)
    (hls : (s.withLines ls).DataInv) : ∃ ls', (s.withLines ls).runPhase = .next (t.withLines ls') := by
  unfold State.runPhase at h ⊢
  cases hp : s.phase with
  | fetchMicro =>
    rw [hp] at h
    cases h
    exact ⟨ls, congrArg _ (s.fetchMicro_withLines ls)⟩
  | decodeRead =>
    rw [hp] at h
    cases h
    exact ⟨ls, rfl⟩
  | aluExec =>
    rw [hp] at h
    exact State.aluExec_withLines h hs hls
  | writebackNext =>
    rw [hp] at h
    exact execAll_withLines h hs hls

theorem step_withLines {s t : State} {ls : List CacheLine} (h : step s = .next t) (hs : s.DataInv)
    (hls : (s.withLines ls).DataInv) : ∃ ls', step (s.withLines ls) = .next (t.withLines ls') := by
  by_cases hr : s.refused = none
  · obtain ⟨u, hu⟩ := s.runPhase_next
    obtain ⟨ls', hu'⟩ := State.runPhase_withLines hu hs hls
    rw [step_of_runPhase s u hr hu] at h
    cases h
    exact ⟨ls', (step_of_runPhase (s.withLines ls) _ hr hu').trans (congrArg _ (u.endStep_withLines ls'))⟩
  · rw [step_of_refused s hr] at h
    cases h
    exact ⟨ls, step_of_refused (s.withLines ls) hr⟩

theorem run_withLines {k : Nat} {s t : State} {ls : List CacheLine} (h : run k s = .next t) (hs : s.DataInv)
    (hls : (s.withLines ls).DataInv) : ∃ ls', run k (s.withLines ls) = .next (t.withLines ls') := by
  induction k generalizing s ls with
  | zero => cases h; exact ⟨ls, rfl⟩
  | succ k ih =>
    obtain ⟨u, hu⟩ := step_next s
    obtain ⟨ls', hu'⟩ := step_withLines hu hs hls
    rw [run_succ k s u hu] at h
    rw [run_succ k _ _ hu']
    exact ih h (step_keeps_dataInv hu hs) (step_keeps_dataInv hu' hls)

/-- Settles O49: by induction on the number of steps, with the data part of the invariant kept on both sides. -/
theorem cacheIsInvisible : Obligations.CacheIsInvisible :=
  fun _ _ _ _ hs hls h => run_withLines h hs.dataInv hls.dataInv

end Sys2Proof.Machine
end

section
/-! PROOFS. The rows of a decoded word: exactly one in each of the groups ALU, SH, AMUX and COND, and with the fields no row reads
they are the whole microinstruction (spec/30_encoding.md, introduction, R80, R81). -/

namespace Sys2Proof

open Machine

/-! ### The groups, by their masks -/

@[simp] theorem Micro.mask_amuxRow (f : Micro) : f.amuxRow.mask = 0x100000000 := by
  unfold Micro.amuxRow; split_ifs <;> rfl

@[simp] theorem Micro.mask_aluRow (f : Micro) : f.aluRow.mask = 0x030000000 := by
  unfold Micro.aluRow; split_ifs <;> rfl

@[simp] theorem Micro.mask_shRow (f : Micro) : f.shRow.mask = 0x00C000000 := by
  unfold Micro.shRow; split_ifs <;> rfl

@[simp] theorem Micro.mask_condRow (f : Micro) : f.condRow.mask = 0x0C0000000 := by
  unfold Micro.condRow; split_ifs <;> rfl

/-- The masks of the groups ALU, SH, AMUX and COND. -/
def groupMasks : List Nat := [0x030000000, 0x00C000000, 0x100000000, 0x0C0000000]

/-- The masks of the enable rows and of the whole-word row are none of the four groups'. -/
theorem Instr.eq_row_of_mem_rows {f : Micro} {i : Instr} (h : i ∈ f.rows) (hgroup : i.mask ∈ groupMasks) :
    i = f.amuxRow ∨ i = f.aluRow ∨ i = f.shRow ∨ i = f.condRow := by
  rw [mem_rows] at h
  obtain rfl | rfl | rfl | ⟨-, rfl⟩ | ⟨-, rfl⟩ | ⟨-, rfl⟩ | ⟨-, rfl⟩ | ⟨-, rfl⟩ | rfl | ⟨-, rfl⟩ := h <;>
    simp_all [Instr.mask, groupMasks]

/-- A microinstruction holds one row of a group at most, for the four rows have four different masks. -/
theorem Instr.eq_of_mem_rows_of_mask_eq {f : Micro} {i j : Instr} (hi : i ∈ f.rows) (hj : j ∈ f.rows)
    (hgroup : j.mask ∈ groupMasks) (hmask : i.mask = j.mask) : i = j := by
  obtain rfl | rfl | rfl | rfl := Instr.eq_row_of_mem_rows hi (hmask ▸ hgroup) <;>
    obtain rfl | rfl | rfl | rfl := Instr.eq_row_of_mem_rows hj hgroup <;> simp_all

theorem Micro.amuxRow_mem_rows (f : Micro) : f.amuxRow ∈ f.rows := by simp [mem_rows]
theorem Micro.aluRow_mem_rows (f : Micro) : f.aluRow ∈ f.rows := by simp [mem_rows]
theorem Micro.shRow_mem_rows (f : Micro) : f.shRow ∈ f.rows := by simp [mem_rows]
theorem Micro.condRow_mem_rows (f : Micro) : f.condRow ∈ f.rows := by simp [mem_rows]

/-- The decoder's rows are the rows of the opcode table that match the word. -/
theorem mem_rows_decode_iff (i : Instr) (w : Nat) : i ∈ (decode w).rows ↔ i.matchesWord w = true := by
  cases i with
  | aluAdd => exact Laws.RowMatch.aluAdd w
  | aluAnd => exact Laws.RowMatch.aluAnd w
  | aluPass => exact Laws.RowMatch.aluPass w
  | aluNot => exact Laws.RowMatch.aluNot w
  | shNone => exact Laws.RowMatch.shNone w
  | shSra1 => exact Laws.RowMatch.shSra1 w
  | shSll8 => exact Laws.RowMatch.shSll8 w
  | shReserved3 => exact Laws.RowMatch.shReserved3 w
  | amuxA => exact Laws.RowMatch.amuxA w
  | amuxMbr => exact Laws.RowMatch.amuxMbr w
  | marw => exact Laws.RowMatch.marw w
  | mbrw => exact Laws.RowMatch.mbrw w
  | enc c => exact Laws.RowMatch.enc c w
  | rd => exact Laws.RowMatch.rd w
  | wr => exact Laws.RowMatch.wr w
  | condNo a => exact Laws.RowMatch.condNo a w
  | condJamn a => exact Laws.RowMatch.condJamn a w
  | condJamz a => exact Laws.RowMatch.condJamz a w
  | condDecode => exact Laws.RowMatch.condDecode w
  | nopAllZero => exact Laws.RowMatch.nopAllZero w

/-- A row of a group that the word holds is the one row of its group that matches the word. -/
theorem existsUnique_row_of_group {w mask : Nat} {row : Instr} (hrow : row ∈ (decode w).rows) (hmask : row.mask = mask)
    (hgroup : mask ∈ groupMasks) : ∃! i : Instr, i.mask = mask ∧ i.matchesWord w = true := by
  refine ⟨row, ⟨hmask, (mem_rows_decode_iff row w).mp hrow⟩, fun i ⟨hi, hmatch⟩ => ?_⟩
  exact Instr.eq_of_mem_rows_of_mask_eq ((mem_rows_decode_iff i w).mpr hmatch) hrow (hmask ▸ hgroup) (hi.trans hmask.symm)

/-- Settles O2: the row of each field is the one row of its group. -/
theorem everyWordHasOneRowPerGroup : Obligations.EveryWordHasOneRowPerGroup := fun w =>
  ⟨existsUnique_row_of_group (decode w).aluRow_mem_rows (decode w).mask_aluRow (by decide),
    existsUnique_row_of_group (decode w).shRow_mem_rows (decode w).mask_shRow (by decide),
    existsUnique_row_of_group (decode w).amuxRow_mem_rows (decode w).mask_amuxRow (by decide),
    existsUnique_row_of_group (decode w).condRow_mem_rows (decode w).mask_condRow (by decide),
    fun i => mem_rows_decode_iff i w⟩

/-! ### The fields back from the rows -/

theorem Micro.bitField_pattern_amuxRow (f : Micro) (h : f.amux < 2) : bitField f.amuxRow.pattern 32 1 = f.amux := by
  unfold Micro.amuxRow
  interval_cases f.amux <;> rfl

theorem Micro.bitField_pattern_aluRow (f : Micro) (h : f.alu < 4) : bitField f.aluRow.pattern 28 2 = f.alu := by
  unfold Micro.aluRow
  interval_cases f.alu <;> rfl

theorem Micro.bitField_pattern_shRow (f : Micro) (h : f.sh < 4) : bitField f.shRow.pattern 26 2 = f.sh := by
  unfold Micro.shRow
  interval_cases f.sh <;> rfl

theorem Micro.bitField_pattern_condRow (f : Micro) (h : f.cond < 4) : bitField f.condRow.pattern 30 2 = f.cond := by
  unfold Micro.condRow
  interval_cases f.cond <;> simp [Instr.pattern, bitField]

/-- Every COND row but COND_DECODE carries the field ADDR. -/
theorem Micro.operandBits_condRow (f : Micro) (hcond : f.cond < 3) (haddr : f.addr < 512) :
    f.condRow.operandBits = f.addr := by
  have hbits : (BitVec.ofNat 9 f.addr).toNat = f.addr := Nat.mod_eq_of_lt haddr
  unfold Micro.condRow
  interval_cases f.cond <;> exact hbits

theorem Micro.marw_mem_rows (f : Micro) : .marw ∈ f.rows ↔ f.mar = 1 := by
  rw [mem_rows_of_isEnable f (by simp [Instr.IsEnable])]; simp

theorem Micro.mbrw_mem_rows (f : Micro) : .mbrw ∈ f.rows ↔ f.mbr = 1 := by
  rw [mem_rows_of_isEnable f (by simp [Instr.IsEnable])]; simp

theorem Micro.enc_mem_rows (f : Micro) (c : RegIdx) : .enc c ∈ f.rows ↔ f.enc = 1 ∧ c = BitVec.ofNat 4 f.c := by
  rw [mem_rows_of_isEnable f (by simp [Instr.IsEnable])]; simp

theorem Micro.exists_enc_mem_rows (f : Micro) : (∃ c, .enc c ∈ f.rows) ↔ f.enc = 1 := by
  simp [f.enc_mem_rows]

theorem Micro.rd_mem_rows (f : Micro) : .rd ∈ f.rows ↔ f.rd = 1 := by
  rw [mem_rows_of_isEnable f (by simp [Instr.IsEnable])]; simp

theorem Micro.wr_mem_rows (f : Micro) : .wr ∈ f.rows ↔ f.wr = 1 := by
  rw [mem_rows_of_isEnable f (by simp [Instr.IsEnable])]; simp

/-- A one-bit enable field is known from whether its row is there. -/
theorem one_bit_eq_of_mem_iff {a b : Nat} {p q : Prop} (ha : a < 2) (hb : b < 2) (hp : p ↔ a = 1) (hq : q ↔ b = 1)
    (hpq : p ↔ q) : a = b := by
  have hone : a = 1 ↔ b = 1 := hp.symm.trans (hpq.trans hq)
  omega

/-- The C field that ENC reads is known from its row. -/
theorem c_eq_of_rows_eq {f g : Micro} (hf : f.c < 16) (hg : g.c < 16) (henc : f.enc = 1) (h : f.rows = g.rows) :
    f.c = g.c := by
  have hrow : .enc (BitVec.ofNat 4 f.c) ∈ g.rows := h ▸ (f.enc_mem_rows _).mpr ⟨henc, rfl⟩
  obtain ⟨-, hc⟩ := (g.enc_mem_rows _).mp hrow
  have hnat := congrArg BitVec.toNat hc
  rwa [BitVec.toNat_ofNat, BitVec.toNat_ofNat, Nat.mod_eq_of_lt hf, Nat.mod_eq_of_lt hg] at hnat

/-- Settles O3: the rows of the four groups give their fields by their patterns and COND's ADDR by its operand, an enable field
is 1 exactly when its row is there, and ENC's operand is the field C. -/
theorem rowsKeepEveryField : Obligations.RowsKeepEveryField := by
  intro f g hf hg hrows ha hb hc haddr
  obtain ⟨famux, fcond, falu, fsh, fmbr, fmar, frd, fwr, fenc, fc, -, -, faddr⟩ := hf
  obtain ⟨gamux, gcond, galu, gsh, gmbr, gmar, grd, gwr, genc, gc, -, -, gaddr⟩ := hg
  have hmem (i : Instr) : i ∈ f.rows ↔ i ∈ g.rows := by rw [hrows]
  have hsame {i j : Instr} (hi : i ∈ f.rows) (hj : j ∈ g.rows) (hgroup : j.mask ∈ groupMasks) (hmask : i.mask = j.mask) :
      i = j := Instr.eq_of_mem_rows_of_mask_eq ((hmem i).mp hi) hj hgroup hmask
  have hamux : f.amuxRow = g.amuxRow := hsame f.amuxRow_mem_rows g.amuxRow_mem_rows (by simp [groupMasks]) (by simp)
  have halu : f.aluRow = g.aluRow := hsame f.aluRow_mem_rows g.aluRow_mem_rows (by simp [groupMasks]) (by simp)
  have hsh : f.shRow = g.shRow := hsame f.shRow_mem_rows g.shRow_mem_rows (by simp [groupMasks]) (by simp)
  have hcond : f.condRow = g.condRow := hsame f.condRow_mem_rows g.condRow_mem_rows (by simp [groupMasks]) (by simp)
  have hamuxField : f.amux = g.amux := by
    rw [← f.bitField_pattern_amuxRow famux, hamux, g.bitField_pattern_amuxRow gamux]
  have haluField : f.alu = g.alu := by
    rw [← f.bitField_pattern_aluRow falu, halu, g.bitField_pattern_aluRow galu]
  have hshField : f.sh = g.sh := by
    rw [← f.bitField_pattern_shRow fsh, hsh, g.bitField_pattern_shRow gsh]
  have hcondField : f.cond = g.cond := by
    rw [← f.bitField_pattern_condRow fcond, hcond, g.bitField_pattern_condRow gcond]
  have hmar : f.mar = g.mar := one_bit_eq_of_mem_iff fmar gmar f.marw_mem_rows g.marw_mem_rows (hmem _)
  have hmbr : f.mbr = g.mbr := one_bit_eq_of_mem_iff fmbr gmbr f.mbrw_mem_rows g.mbrw_mem_rows (hmem _)
  have hrd : f.rd = g.rd := one_bit_eq_of_mem_iff frd grd f.rd_mem_rows g.rd_mem_rows (hmem _)
  have hwr : f.wr = g.wr := one_bit_eq_of_mem_iff fwr gwr f.wr_mem_rows g.wr_mem_rows (hmem _)
  have henc : f.enc = g.enc :=
    one_bit_eq_of_mem_iff fenc genc f.exists_enc_mem_rows g.exists_enc_mem_rows (exists_congr fun c => hmem _)
  have hcField : f.c = g.c := by
    obtain h0 | h1 : f.enc = 0 ∨ f.enc = 1 := by omega
    · exact hc h0
    · exact c_eq_of_rows_eq fc gc h1 hrows
  have haddrField : f.addr = g.addr := by
    obtain h3 | hlt : f.cond = 3 ∨ f.cond < 3 := by omega
    · exact haddr h3
    · rw [← f.operandBits_condRow hlt faddr, hcond, g.operandBits_condRow (hcondField ▸ hlt) gaddr]
  cases f
  cases g
  simp only [Micro.mk.injEq]
  exact ⟨hamuxField, hcondField, haluField, hshField, hmbr, hmar, hrd, hwr, henc, hcField, hb, ha, haddrField⟩

end Sys2Proof
end

section
/-! PROOFS. The register file: a write and the reads after it, and which registers a step can change
(spec/10_state.md R22 to R25). -/

namespace Sys2Proof.Machine

/-! ### Reads and writes -/

/-- Settles O6: each index read out of the layout. -/
theorem registerReadsByRole : Obligations.RegisterReadsByRole := fun _ =>
  ⟨rfl, rfl, rfl, rfl, rfl, rfl, rfl, rfl, rfl, rfl, rfl, rfl, rfl, rfl, rfl, rfl⟩

/-- Settles O7: the read after a write is a case split on the slot, and a slot that stores nothing drops the write. -/
theorem registerWriteThenRead : Obligations.RegisterWriteThenRead := by
  intro s i j v
  refine ⟨fun hw => ?_, fun hj => ?_, fun hw => ?_⟩
  · rw [s.readReg_writeReg, if_pos ⟨rfl, (Slot.stores_iff_writable i).mpr hw⟩]
  · rw [s.readReg_writeReg, if_neg fun h => hj h.1]
  · rw [← Slot.stores_iff_writable, Bool.not_eq_true] at hw
    exact s.writeReg_of_not_stores i v hw

/-! ### Over one step -/

theorem mem_rows_of_mem_enableRows {f : Micro} {i : Instr} (h : i ∈ f.enableRows) : i ∈ f.rows := by
  simp [Micro.rows, Micro.writebackRows, h]

theorem State.endStep_readReg (s : State) (i : RegIdx) : s.endStep.readReg i = s.readReg i := by
  simp [State.readReg]

theorem readReg_exec_cond {i : Instr} {s t : State} (hi : Instr.IsCond i) (h : exec i s = .next t) (j : RegIdx) :
    t.readReg j = s.readReg j := by
  obtain ⟨e, -, ht⟩ := exec_cond_frame i s t hi h
  rw [ht]; rfl

/-- Registers change in phase 4 only, and there only by its enable rows. -/
theorem step_readReg_ne {s t : State} {i : RegIdx} (h : step s = .next t) (hne : t.readReg i ≠ s.readReg i) :
    s.refused = none ∧ s.phase = .writebackNext ∧
      ∃ u, execAll s.micro.enableRows s = .next u ∧ t.readReg i = u.readReg i := by
  obtain ⟨-, rfl⟩ | ⟨-, -, rfl⟩ | ⟨-, -, rfl⟩ | ⟨-, -, u, hu, rfl⟩ | ⟨hr, hp, u, v, hu, hv, rfl⟩ :=
    step_cases s t h
  · exact absurd rfl hne
  · exact absurd (by simp [State.readReg]) hne
  · exact absurd ((s.decodeRead s.micro).endStep_readReg i) hne
  · refine absurd ?_ hne
    rw [State.endStep_readReg, execAll_alu_frame _ s u (Instr.inAlu_of_mem _) hu]
    split <;> rfl
  · exact ⟨hr, hp, u, hu, (v.endStep_readReg i).trans (readReg_exec_cond (Instr.isCond_condRow _) hv i)⟩

/-- Settles O8: what the enable rows of phase 4 can do to a register, with the fields of the word that put them there. -/
theorem onlyNamedSlotsChange : Obligations.OnlyNamedSlotsChange := by
  intro s t i h hne
  obtain ⟨hr, hp, u, hu, htu⟩ := step_readReg_ne h hne
  have hchange := readReg_execAll_enable _ s u i (Instr.isEnable_of_mem _) hu
  rw [← htu] at hchange
  obtain hsame | ⟨hstores, hrow⟩ := hchange
  · exact absurd hsame hne
  have hwritable : Oracle.writable i := (Slot.stores_iff_writable i).mp hstores
  have row {j : Instr} (hj : j ∈ s.micro.enableRows) : j ∈ s.micro.rows := mem_rows_of_mem_enableRows hj
  refine ⟨hr, hp, hwritable, ?_⟩
  obtain ⟨⟨hmar, rfl⟩ | ⟨hmbr, rfl⟩ | henc, hval⟩ | ⟨hrd, rfl⟩ := hrow
  · exact ⟨.inl ⟨rfl, s.micro.marw_mem_rows.mp (row hmar)⟩, .inl hval⟩
  · exact ⟨.inr (.inl ⟨rfl, .inl (s.micro.mbrw_mem_rows.mp (row hmbr))⟩), .inl hval⟩
  · obtain ⟨hset, hc⟩ := (s.micro.enc_mem_rows i).mp (row henc)
    have hwidth : s.micro.c < 16 := bitField_lt s.mir.toNat 17 4
    have hfield : s.micro.c = i.toNat := by rw [hc, BitVec.toNat_ofNat, Nat.mod_eq_of_lt hwidth]
    exact ⟨.inr (.inr ⟨hset, hfield⟩), .inl hval⟩
  · have hset : s.micro.rd = 1 := s.micro.rd_mem_rows.mp (row hrd)
    exact ⟨.inr (.inl ⟨rfl, .inr hset⟩), .inr ⟨rfl, hset⟩⟩

end Sys2Proof.Machine
end

section
/-! PROOFS. The ALU and shift rows: their bits, the value each computes as a formula on naturals (spec/40_alu_shifter.md R122 to
R130), and phase 3 as the rows of the word (spec/41_engine_cycle.md R144). -/

namespace Sys2Proof.Machine

/-! ### When a word holds an ALU or an SH row -/

/-- The ALU field is bits 29:28. -/
theorem alu_decode_eq_iff (w : Nat) (b29 b28 : Bool) :
    (decode w).alu = 2 * b29.toNat + b28.toNat ↔ w.testBit 29 = b29 ∧ w.testBit 28 = b28 :=
  bitField_two_eq_iff w 28 b29 b28

/-- The SH field is bits 27:26. -/
theorem sh_decode_eq_iff (w : Nat) (b27 b26 : Bool) :
    (decode w).sh = 2 * b27.toNat + b26.toNat ↔ w.testBit 27 = b27 ∧ w.testBit 26 = b26 :=
  bitField_two_eq_iff w 26 b27 b26

theorem aluRow_decode_eq_aluAdd (w : Nat) :
    (decode w).aluRow = .aluAdd ↔ w.testBit 29 = false ∧ w.testBit 28 = false := by
  rw [← alu_decode_eq_iff, eq_comm, eq_aluRow_iff]; simp

theorem aluRow_decode_eq_aluAnd (w : Nat) :
    (decode w).aluRow = .aluAnd ↔ w.testBit 29 = false ∧ w.testBit 28 = true := by
  rw [← alu_decode_eq_iff, eq_comm, eq_aluRow_iff]; simp

theorem aluRow_decode_eq_aluPass (w : Nat) :
    (decode w).aluRow = .aluPass ↔ w.testBit 29 = true ∧ w.testBit 28 = false := by
  rw [← alu_decode_eq_iff, eq_comm, eq_aluRow_iff]; simp

theorem aluRow_decode_eq_aluNot (w : Nat) :
    (decode w).aluRow = .aluNot ↔ w.testBit 29 = true ∧ w.testBit 28 = true := by
  have hwidth : (decode w).alu < 4 := bitField_lt w 28 2
  have hthree : (decode w).alu ≠ 0 ∧ (decode w).alu ≠ 1 ∧ (decode w).alu ≠ 2 ↔ (decode w).alu = 3 := by omega
  rw [← alu_decode_eq_iff, eq_comm, eq_aluRow_iff, hthree]; simp

theorem shRow_decode_eq_shNone (w : Nat) :
    (decode w).shRow = .shNone ↔ w.testBit 27 = false ∧ w.testBit 26 = false := by
  rw [← sh_decode_eq_iff, eq_comm, eq_shRow_iff]; simp

theorem shRow_decode_eq_shSra1 (w : Nat) :
    (decode w).shRow = .shSra1 ↔ w.testBit 27 = false ∧ w.testBit 26 = true := by
  rw [← sh_decode_eq_iff, eq_comm, eq_shRow_iff]; simp

theorem shRow_decode_eq_shSll8 (w : Nat) :
    (decode w).shRow = .shSll8 ↔ w.testBit 27 = true ∧ w.testBit 26 = false := by
  rw [← sh_decode_eq_iff, eq_comm, eq_shRow_iff]; simp

theorem shRow_decode_eq_shReserved3 (w : Nat) :
    (decode w).shRow = .shReserved3 ↔ w.testBit 27 = true ∧ w.testBit 26 = true := by
  have hwidth : (decode w).sh < 4 := bitField_lt w 26 2
  have hthree : (decode w).sh ≠ 0 ∧ (decode w).sh ≠ 1 ∧ (decode w).sh ≠ 2 ↔ (decode w).sh = 3 := by omega
  rw [← sh_decode_eq_iff, eq_comm, eq_shRow_iff, hthree]; simp

/-! ### The values as formulas on naturals -/

theorem toNat_aluAdd (a b : Word) : (aluAdd a b).toNat = (a.toNat + b.toNat) % 0x10000 := BitVec.toNat_add a b

theorem toNat_aluAnd (a b : Word) : (aluAnd a b).toNat = Nat.land a.toNat b.toNat := BitVec.toNat_and a b

theorem toNat_aluNot (a : Word) : (aluNot a).toNat = 0xFFFF - a.toNat := BitVec.toNat_not

/-- The bit that the arithmetic shift keeps, as a number: it stands above everything the shift moves. -/
theorem toNat_shSra1 (w : Word) : (shSra1 w).toNat = w.toNat / 2 + w.toNat / 0x8000 * 0x8000 := by
  have hlt : w.toNat < 0x10000 := w.isLt
  have hsign : w.toNat &&& 0x8000 = (w.toNat / 0x8000) <<< 15 := by
    have hfield := and_field w.toNat 15 1
    rwa [bitField_toNat_eq_div w rfl] at hfield
  have hhalf : w.toNat / 2 < 2 ^ 15 := by omega
  have hor : (shSra1 w).toNat = w.toNat >>> 1 ||| (w.toNat &&& 0x8000) := by simp [shSra1]
  rw [hor, hsign, Nat.shiftRight_eq_div_pow, Nat.or_comm, ← Nat.shiftLeft_add_eq_or_of_lt hhalf, Nat.shiftLeft_eq,
    Nat.add_comm]

theorem toNat_shSll8 (w : Word) : (shSll8 w).toNat = w.toNat * 0x100 % 0x10000 := by
  rw [shSll8, BitVec.toNat_shiftLeft, Nat.shiftLeft_eq]

theorem toNat_aluValue (alu : Nat) (a b : Word) : (aluValue alu a b).toNat = Oracle.alu alu a.toNat b.toNat := by
  unfold aluValue Oracle.alu
  split_ifs
  · exact toNat_aluAdd a b
  · exact toNat_aluAnd a b
  · rfl
  · exact toNat_aluNot a

theorem toNat_shValue {sh : Nat} (h : sh < 3) (w : Word) : (shValue sh w).toNat = Oracle.shift sh w.toNat := by
  unfold shValue Oracle.shift
  split_ifs with h0 h1 h2
  · rfl
  · exact toNat_shSra1 w
  · exact toNat_shSll8 w
  · omega

theorem flagN_iff_le_toNat (v : Word) : flagN v = true ↔ 0x8000 ≤ v.toNat := getLsbD_15_iff_le_toNat v

/-! ### The rows -/

/-- Settles O9: each ALU row puts its value in aluResult, and the value is the formula. -/
theorem aluRowsComputeStage : Obligations.AluRowsComputeStage :=
  ⟨fun w => ⟨aluRow_decode_eq_aluAdd w, aluRow_decode_eq_aluAnd w, aluRow_decode_eq_aluPass w, aluRow_decode_eq_aluNot w⟩,
    fun s => ⟨⟨_, exec_aluAdd s, rfl, toNat_aluAdd _ _⟩, ⟨_, exec_aluAnd s, rfl, toNat_aluAnd _ _⟩,
      ⟨_, exec_aluPass s, rfl, rfl⟩, ⟨_, exec_aluNot s, rfl, toNat_aluNot _⟩⟩⟩

/-- The sign bit as the statement writes it. -/
theorem div_sign_eq_ite (w : Word) :
    w.toNat / 0x8000 * 0x8000 = if 0x8000 ≤ w.toNat then 0x8000 else 0 := by
  have hlt : w.toNat < 0x10000 := w.isLt
  split <;> omega

/-- Settles O10: each defined shift row finishes the phase with its value, and the flags are the value's. -/
theorem shiftRowsComputeResult : Obligations.ShiftRowsComputeResult := by
  refine ⟨fun w => ⟨shRow_decode_eq_shNone w, shRow_decode_eq_shSra1 w, shRow_decode_eq_shSll8 w⟩, fun s =>
    ⟨⟨_, exec_shNone s, rfl, rfl, flagZ_iff_toNat_eq_zero _, flagN_iff_le_toNat _⟩,
      ⟨_, exec_shSra1 s, rfl, ?_, flagZ_iff_toNat_eq_zero _, flagN_iff_le_toNat _⟩,
      ⟨_, exec_shSll8 s, rfl, toNat_shSll8 _, flagZ_iff_toNat_eq_zero _, flagN_iff_le_toNat _⟩⟩⟩
  rw [← div_sign_eq_ite]
  exact toNat_shSra1 s.aluResult

theorem exec_shReserved3_refused (s : State) (h : s.cfg.acceptShift3 = false) :
    exec .shReserved3 s = .next (s.refuse .reservedShift) := by
  simp [h]

theorem exec_shReserved3_accepted (s : State) (h : s.cfg.acceptShift3 = true) :
    exec .shReserved3 s = .next (s.finishAlu (Config.shift3 s.aluResult)) := by
  simp [h]

/-- Settles O11: the row sets the mark, or finishes the phase with SHIFT3's value. -/
theorem reservedShiftRow : Obligations.ReservedShiftRow :=
  ⟨shRow_decode_eq_shReserved3, exec_shReserved3_refused, fun s h =>
    ⟨_, exec_shReserved3_accepted s h, rfl, rfl, flagZ_iff_toNat_eq_zero _, flagN_iff_le_toNat _⟩⟩

/-! ### Phase 3 -/

/-- Settles O16: the exact next state of phase 3, whose values are the formulas. -/
theorem aluExecComputesFormula : Obligations.AluExecComputesFormula := by
  intro s hr hp hne
  have hwidth : s.micro.sh < 4 := bitField_lt s.mir.toNat 26 2
  have hsh : s.micro.sh < 3 := Nat.lt_of_le_of_ne (Nat.le_of_lt_succ hwidth) hne
  refine ⟨_, step_aluExec s hr hp (.inr hsh), rfl, rfl, ?_, flagZ_iff_toNat_eq_zero _, flagN_iff_le_toNat _⟩
  exact (toNat_shValue hsh _).trans (congrArg _ (toNat_aluValue _ _ _))

theorem execAll_aluRows_of_rows {f : Micro} {s t u v : State} (hamux : exec f.amuxRow s = .next t)
    (halu : exec f.aluRow t = .next u) (hsh : exec f.shRow u = .next v) : execAll f.aluRows s = .next v := by
  simp [Micro.aluRows, execAll, hamux, halu, hsh]

/-- Phase 3 as the run of its rows: the counter moves on, or, where they leave a mark, the step keeps the mark alone. -/
theorem step_aluExec_of_rows {s v : State} (hr : s.refused = none) (hp : s.phase = .aluExec)
    (hrows : execAll s.micro.aluRows s = .next v) :
    step s = .next (if v.refused = none then { v with phase := .writebackNext } else { s with refused := v.refused }) := by
  have hphase : s.runPhase = .next (if v.refused.isSome then { s with refused := v.refused } else v) := by
    simp [State.runPhase, hp, State.aluExec, hrows]
  rw [step_of_runPhase s _ hr hphase]
  by_cases hv : v.refused = none
  · have hpv : v.phase = .aluExec := by rw [execAll_alu_frame _ s v (Instr.inAlu_of_mem _) hrows, hp]
    rw [if_neg (by simp [hv]), if_pos hv, State.endStep_of_not_refused hv, hpv]
    rfl
  · rw [if_pos (Option.isSome_iff_ne_none.mpr hv), if_neg hv]
    exact congrArg _ (State.endStep_of_refused hv)

/-- Settles O18: the three rows one after another are the run that phase 3 makes. -/
theorem aluExecRunsDecodedRows : Obligations.AluExecRunsDecodedRows :=
  fun _ _ _ _ hr hp hamux halu hsh => step_aluExec_of_rows hr hp (execAll_aluRows_of_rows hamux halu hsh)

/-- Settles O12: the AMUX and ALU rows run, the SH row sets the mark, and the step keeps the mark alone. -/
theorem reservedShiftStepRefuses : Obligations.ReservedShiftStepRefuses := by
  intro s hr hp haccept h27 h26
  have hrow : s.micro.shRow = .shReserved3 := (shRow_decode_eq_shReserved3 _).mpr ⟨h27, h26⟩
  have hsh (u : State) (hu : u.cfg = s.cfg) : exec s.micro.shRow u = .next (u.refuse .reservedShift) := by
    rw [hrow, exec_shReserved3_refused u (hu ▸ haccept)]
  exact ⟨step_aluExec_of_rows hr hp (execAll_aluRows_of_rows (exec_amuxRow _ s) (exec_aluRow _ _) (hsh _ rfl)),
    step_of_refused _ (by simp)⟩

end Sys2Proof.Machine
end

section
/-! PROOFS. Memory and cache (spec/20_memory.md R51, R52, R59, R60, R65): reads after writes, hits and refills, and cache reads
that give the memory word. -/

namespace Sys2Proof.Machine

theorem State.memWrite_of_le (s : State) {a : Nat} (v : Word) (h : s.cfg.memorySize ≤ a) : s.memWrite a v = s :=
  if_neg (Nat.not_lt_of_le h)

/-- Settles O25: reads and writes on either side of MEMORY_SIZE. -/
theorem memoryReadAfterWrite : Obligations.MemoryReadAfterWrite := by
  refine ⟨fun s _ h => s.memRead_of_le h, fun s _ v h => s.memWrite_of_le v h, fun s a v hmem hlt => ⟨?_, ?_⟩,
    fun s a b v hne => s.memRead_memWrite_ne a b v hne⟩
  · rw [s.memRead_memWrite a a v hmem.1, if_pos ⟨rfl, hlt⟩]
  · exact s.memoryWellFormed_memWrite a v hmem

/-- Settles O27: the hit test is the statement's condition, and R58's parts of the address are its formulas. -/
theorem cacheReadHitOrRefill : Obligations.CacheReadHitOrRefill := by
  intro s addr o i tag
  have hit_iff : s.cacheHit addr = true ↔ (s.line i).valid = true ∧ (s.line i).tag = tag := s.cacheHit_iff addr
  refine ⟨fun h => ?_, fun h => ?_⟩
  · exact s.cacheRead_hit addr (hit_iff.mpr h)
  · exact s.cacheRead_miss addr (Bool.not_eq_true _ ▸ mt hit_iff.mp h)

/-- Settles O23: RD writes MBR and the lines, and the word it loads is the memory word. -/
theorem readRowLoadsMemoryWord : Obligations.ReadRowLoadsMemoryWord := by
  intro s hinv
  refine ⟨_, exec_rd_eq s, ?_⟩
  rw [s.cacheRead_value_of_inv _ hinv]

theorem State.memRead_cacheRead (s : State) (a b : Nat) : (s.cacheRead a).2.2.memRead b = s.memRead b :=
  State.memRead_congr _ _ (by simp) (by simp) b

/-- Settles O30: the state a cache read leaves is still coherent, with the same memory. -/
theorem cacheReadReturnsMemory : Obligations.CacheReadReturnsMemory := by
  intro s a b hinv
  have hdata := hinv.dataInv
  refine ⟨hdata.cacheRead_value a, ?_⟩
  rw [(hdata.cacheRead a).cacheRead_value b, s.memRead_cacheRead a b, hdata.cacheRead_value b]

/-- Settles O31: the read after the write is the word written or the memory word from before; at or above MEMORY_SIZE no write
took effect and memory reads 0. -/
theorem cacheReadSeesLatestWrite : Obligations.CacheReadSeesLatestWrite := by
  intro s a b v hinv
  have hread := s.cacheRead_cacheWrite_value a b v hinv
  refine ⟨hread, fun hle => ?_⟩
  rw [hread, if_neg (by omega), s.memRead_of_le hle]

/-- Settles O29: the write leaves the state as it was, and the address reads as memory does. -/
theorem outOfRangeWriteIgnored : Obligations.OutOfRangeWriteIgnored := by
  intro s addr v hle
  have hsame := s.cacheWrite_of_le v hle
  refine ⟨hsame, fun hinv => ?_⟩
  rw [hsame, s.cacheRead_value_of_inv addr hinv, s.memRead_of_le hle]

end Sys2Proof.Machine
end

section
/-! PROOFS. What each phase writes, the fault log, and phase 4 by the enables of its word (spec/41_engine_cycle.md R142 to R146,
spec/42_writeback_memory.md, spec/60_exceptions.md). -/

namespace Sys2Proof.Machine

/-! ### Phase 4 as its enable rows and its COND row -/

theorem step_writebackNext_of_rows {s u v : State} (hr : s.refused = none) (hp : s.phase = .writebackNext)
    (henable : execAll s.micro.enableRows s = .next u) (hcond : exec s.micro.condRow u = .next v) :
    step s = .next { v with phase := .fetchMicro } :=
  step_writebackNext s v hr hp ((s.writebackNext_of_enableRows u _ henable).trans hcond)

/-- Phase 4 always runs: there is a state between the enable rows and the COND row, and one after. -/
theorem step_writebackNext_cases {s t : State} (hr : s.refused = none) (hp : s.phase = .writebackNext)
    (h : step s = .next t) : ∃ u v, execAll s.micro.enableRows s = .next u ∧ exec s.micro.condRow u = .next v ∧
      t = { v with phase := .fetchMicro } := by
  obtain ⟨u, hu⟩ := execAll_next s.micro.enableRows s
  obtain ⟨v, hv⟩ := exec_next s.micro.condRow u
  rw [step_writebackNext_of_rows hr hp hu hv] at h
  cases h
  exact ⟨u, v, hu, hv, rfl⟩

/-! ### What each phase may write -/

/-- Settles O45: the exact next state of phases 1 and 2, and the frames of the rows that phases 3 and 4 run. -/
theorem eachPhaseWritesItsOwn : Obligations.EachPhaseWritesItsOwn := by
  intro s t h
  by_cases hr : s.refused = none
  case neg =>
    rw [step_of_refused s hr] at h
    cases h
    exact ⟨fun _ => rfl, fun _ => rfl, fun _ => rfl, fun _ => rfl⟩
  refine ⟨fun hp => ?_, fun hp => ?_, fun hp => ?_, fun hp => ?_⟩
  · rw [step_fetchMicro s hr hp] at h
    cases h
    simp
  · rw [step_decodeRead s hr hp] at h
    cases h
    rfl
  · obtain ⟨v, hv⟩ := execAll_next s.micro.aluRows s
    have hframe := execAll_alu_frame _ s v (Instr.inAlu_of_mem _) hv
    rw [step_aluExec_of_rows hr hp hv] at h
    cases h
    split
    · rw [hframe]
    · rfl
  · obtain ⟨u, v, hu, hv, rfl⟩ := step_writebackNext_cases hr hp h
    have henable := execAll_enable_frame _ s u (Instr.isEnable_of_mem _) hu
    obtain ⟨e, -, hcond⟩ := exec_cond_frame _ u v (Instr.isCond_condRow _) hv
    rw [hcond, henable]

/-! ### The fault log -/

/-- R142, R211: phase 1 records one event at most. -/
theorem State.fetchMicro_faults (s : State) : ∃ e, s.fetchMicro.faults = s.faults ++ e ∧ e.length ≤ 1 := by
  cases hslot : s.cfg.controlSlot s.mpc with
  | some w => exact ⟨[], by simp [s.fetchMicro_populated w hslot]⟩
  | none => exact ⟨[.unpopulatedControlStore s.mpc], by simp [s.fetchMicro_empty hslot]⟩

/-- Settles O39: phase by phase. Phases 2 and 3 leave the log; phase 1 and the COND row of phase 4 append one event at most. -/
theorem faultLogOnlyGrows : Obligations.FaultLogOnlyGrows := by
  intro s t h
  obtain ⟨-, rfl⟩ | ⟨-, hp, rfl⟩ | ⟨-, -, rfl⟩ | ⟨-, -, u, hu, rfl⟩ | ⟨-, hp, u, v, hu, hv, rfl⟩ :=
    step_cases s t h
  · exact ⟨[], by simp⟩
  · obtain ⟨e, he, hlen⟩ := s.fetchMicro_faults
    exact ⟨e, by simp [he], hlen, fun _ => .inl hp⟩
  · exact ⟨[], by simp⟩
  · refine ⟨[], ?_, by simp, by simp⟩
    rw [execAll_alu_frame _ s u (Instr.inAlu_of_mem _) hu]
    split <;> simp
  · obtain ⟨e, hlen, hcond⟩ := exec_cond_frame _ u v (Instr.isCond_condRow _) hv
    have hlog : u.faults = s.faults := by rw [execAll_enable_frame _ s u (Instr.isEnable_of_mem _) hu]
    refine ⟨e, ?_, hlen, fun _ => .inr hp⟩
    rw [State.endStep_faults, hcond, hlog]

theorem step_faults_of_phase {s t : State} (h : step s = .next t) (h1 : s.phase ≠ .fetchMicro)
    (h4 : s.phase ≠ .writebackNext) : t.faults = s.faults := by
  obtain ⟨e, he, -, hphase⟩ := faultLogOnlyGrows s t h
  have hnone : e = [] := by
    by_contra hne
    exact (hphase hne).elim h1 h4
  rw [he, hnone, List.append_nil]

/-! ### Phase 4 by the enables of its word -/

theorem Micro.enableRows_eq_nil {f : Micro} (hmar : f.mar = 0) (hmbr : f.mbr = 0) (henc : f.enc = 0) (hrd : f.rd = 0)
    (hwr : f.wr = 0) : f.enableRows = [] := by
  simp [Micro.enableRows, hmar, hmbr, henc, hrd, hwr]

/-- Settles O46: with no enable set phase 4 is the COND row alone. -/
theorem noEnableNoDataChange : Obligations.NoEnableNoDataChange := by
  intro s t hr hp hmar hmbr henc hrd hwr h
  obtain ⟨u, v, hu, hv, rfl⟩ := step_writebackNext_cases hr hp h
  have hnil : s.micro.enableRows = [] := Micro.enableRows_eq_nil hmar hmbr henc hrd hwr
  rw [hnil] at hu
  cases hu
  obtain ⟨e, -, hcond⟩ := exec_cond_frame _ s v (Instr.isCond_condRow _) hv
  rw [hcond]

/-- The C-bus write is the last word on a slot other than MBR: the rows after ENC write MBR and memory only, and those before it
write the same aluResult. -/
theorem readReg_execAll_enable_of_enc_mem {is : List Instr} {s t : State} {j : RegIdx} (hi : ∀ i ∈ is, Instr.IsEnable i)
    (h : execAll is s = .next t) (henc : .enc j ∈ is) (hj : Slot.stores j = true) (hne : j ≠ Slot.mbr) :
    t.readReg j = s.aluResult := by
  induction is generalizing s with
  | nil => cases henc
  | cons i is ih =>
    obtain ⟨u, hu, hrun⟩ := Result.andThen_eq_next _ _ _ h
    have hrest (k : Instr) (hk : k ∈ is) : Instr.IsEnable k := hi k (List.mem_cons_of_mem _ hk)
    have halu : u.aluResult = s.aluResult := by rw [exec_enable_frame i s u (hi i List.mem_cons_self) hu]
    rw [← halu]
    obtain rfl | henc := List.mem_cons.mp henc
    · have hwritten : u.readReg j = u.aluResult := by
        cases hu
        rw [State.readReg_writeReg, if_pos ⟨rfl, hj⟩, State.writeReg_aluResult]
      obtain hkept | ⟨-, ⟨-, hval⟩ | ⟨-, hmbr⟩⟩ := readReg_execAll_enable is u t j hrest hrun
      · exact hkept.trans hwritten
      · exact hval
      · exact absurd hmbr hne
    · exact ih hrest hrun henc

/-- Settles O35: the enable rows leave IR = aluResult, and the COND row dispatches on that IR. -/
theorem dispatchSeesNewIr : Obligations.DispatchSeesNewIr := by
  intro s hr hp henc hc hcond
  obtain ⟨u, hu⟩ := execAll_next s.micro.enableRows s
  have henable : ∀ i ∈ s.micro.enableRows, Instr.IsEnable i := Instr.isEnable_of_mem _
  have hrow : s.micro.condRow = .condDecode := by simp [Micro.condRow, State.micro, hcond]
  have hmem : .enc Slot.ir ∈ s.micro.enableRows := by
    have hslot : BitVec.ofNat 4 s.micro.c = Slot.ir := congrArg (BitVec.ofNat 4) hc
    have hset : s.micro.enc = 1 := henc
    simp [Micro.enableRows, hset, hslot]
  have hir : u.regs.ir = s.aluResult := readReg_execAll_enable_of_enc_mem henable hu hmem rfl (by decide)
  have hframe := execAll_enable_frame _ s u henable hu
  have hcfg : u.cfg = s.cfg := by rw [hframe]
  have hlog : u.faults = s.faults := by rw [hframe]
  cases hm : s.cfg.mapped (opkey s.aluResult) with
  | some a =>
    have hdispatch : exec s.micro.condRow u = .next (u.goTo a) := by
      rw [hrow, exec_condDecode_mapped u a (by rw [hcfg, hir, hm])]
    refine ⟨_, step_writebackNext_of_rows hr hp hu hdispatch, hir, fun b hb => ?_, nofun⟩
    cases hb
    exact ⟨rfl, hlog⟩
  | none =>
    have hdispatch : exec s.micro.condRow u =
        .next ((u.raise (.unmappedOpcode s.aluResult (opkey s.aluResult))).goTo 0) := by
      rw [hrow, exec_condDecode_unmapped u (by rw [hcfg, hir, hm]), hir]
    refine ⟨_, step_writebackNext_of_rows hr hp hu hdispatch, hir, nofun, fun _ => ⟨rfl, ?_⟩⟩
    rw [← hlog]
    rfl

/-! ### RD and WR in one word -/

theorem execAll_data_frame {is : List Instr} {s t : State} (h : execAll is s = .next t)
    (hi : ∀ i ∈ is, i ≠ .rd ∧ i ≠ .wr) : t.cfg = s.cfg ∧ t.mem = s.mem ∧ t.lines = s.lines := by
  induction is generalizing s with
  | nil => cases h; exact ⟨rfl, rfl, rfl⟩
  | cons i is ih =>
    obtain ⟨u, hu, h⟩ := Result.andThen_eq_next _ _ _ h
    obtain ⟨hrd, hwr⟩ := hi i List.mem_cons_self
    obtain ⟨hcfg, hmem, hlines⟩ := exec_data_frame hu hrd hwr
    obtain ⟨hcfg', hmem', hlines'⟩ := ih h fun j hj => hi j (List.mem_cons_of_mem _ hj)
    exact ⟨hcfg'.trans hcfg, hmem'.trans hmem, hlines'.trans hlines⟩

/-- RD and WR are the last two enable rows, and no row before them reaches memory. -/
theorem Micro.enableRows_of_rd_wr {f : Micro} (hrd : f.rd = 1) (hwr : f.wr = 1) :
    ∃ is, f.enableRows = is ++ [.rd, .wr] ∧ ∀ i ∈ is, i ≠ .rd ∧ i ≠ .wr := by
  refine ⟨(if f.mar = 1 then [.marw] else []) ++ (if f.mbr = 1 then [.mbrw] else []) ++
    (if f.enc = 1 then [.enc (BitVec.ofNat 4 f.c)] else []), by simp [Micro.enableRows, hrd, hwr], fun i hi => ?_⟩
  simp only [List.mem_append] at hi
  obtain (h | h) | h := hi
  all_goals
    split at h
    · rw [List.mem_singleton.mp h]; simp
    · cases h

/-- In a coherent state RD fetches the memory word at MAR, so WR stores what is there already. -/
theorem exec_rd_wr {s t v : State} (hs : s.DataInv) (hrd : exec .rd s = .next t) (hwr : exec .wr t = .next v) :
    (∀ a, v.memRead a = s.memRead a) ∧ v.regs.mbr = s.memRead v.regs.mar.toNat := by
  have ht : t.cfg = s.cfg ∧ t.mem = s.mem ∧ t.regs.mbr = s.memRead t.regs.mar.toNat := by
    rw [exec_rd_eq, hs.cacheRead_value] at hrd
    cases hrd
    exact ⟨rfl, rfl, rfl⟩
  obtain ⟨hcfg, hmem, hmbr⟩ := ht
  have hread (a : Nat) : t.memRead a = s.memRead a := State.memRead_congr t s hcfg hmem a
  have hwf : Memory.wf t.mem := by
    obtain ⟨-, ⟨hwf, -⟩, -⟩ := hs
    rwa [hmem]
  rw [exec_wr] at hwr
  cases hwr
  refine ⟨fun a => ?_, by rw [State.cacheWrite_regs, hmbr]⟩
  rw [State.memRead_cacheWrite, State.memRead_memWrite _ _ _ _ hwf, hmbr, hread]
  split
  · next h => rw [h.1]
  · rfl

/-- Settles O47: the rows before RD reach no memory, RD and WR put back the word that was there, and the COND row writes neither
registers nor memory. -/
theorem readThenWriteKeepsMemory : Obligations.ReadThenWriteKeepsMemory := by
  intro s hinv hr hp hrd hwr
  obtain ⟨is, hrows, hbefore⟩ := Micro.enableRows_of_rd_wr (f := s.micro) hrd hwr
  obtain ⟨u, hu⟩ := execAll_next is s
  obtain ⟨t, ht⟩ := exec_next .rd u
  obtain ⟨v, hv⟩ := exec_next .wr t
  obtain ⟨w, hw⟩ := exec_next s.micro.condRow v
  have henable : execAll s.micro.enableRows s = .next v := by
    rw [hrows, execAll_append, hu, Result.andThen_next]
    simp only [execAll, ht, hv, Result.andThen_next]
  obtain ⟨hcfg, hmem, -⟩ := execAll_data_frame hu hbefore
  obtain ⟨hkept, hmbr⟩ := exec_rd_wr (execAll_keeps_dataInv hu hinv.dataInv) ht hv
  have hread (a : Nat) : v.memRead a = s.memRead a := (hkept a).trans (State.memRead_congr u s hcfg hmem a)
  obtain ⟨e, -, hcond⟩ := exec_cond_frame _ v w (Instr.isCond_condRow _) hw
  refine ⟨_, step_writebackNext_of_rows hr hp henable hw, ?_⟩
  rw [hcond]
  exact ⟨hread, hmbr.trans (State.memRead_congr u s hcfg hmem _)⟩

end Sys2Proof.Machine
end

section
/-! PROOFS. The four steps of a microcycle (spec/41_engine_cycle.md section 4): the state its phase 4 starts from, and what
follows for the flags, the faults and the all-zero word. -/

namespace Sys2Proof.Machine

/-! ### Phases 1 to 3 -/

/-- The state after phase 3 of the word `w` fetched at `s`, but for the counter: the latches, the result and its flags are
computed from the registers of `s` (R142 to R144). -/
def State.computed (s : State) (w : MicroWord) : State :=
  let t := State.decodeRead { s with mir := w } (decode w.toNat)
  State.finishAlu { t with latchA := t.inputA (decode w.toNat) } (t.aluExecValue (decode w.toNat))

theorem run_three_of_steps {s t u v : State} (h1 : step s = .next t) (h2 : step t = .next u) (h3 : step u = .next v) :
    run 3 s = .next v := by
  rw [run_succ 2 s t h1, run_succ 1 t u h2, run_succ 0 u v h3, run]

/-- Phases 1 to 3 at a populated slot, where the word does not make phase 3 refuse. -/
theorem run_three_of_populated (s : State) (w : MicroWord) (hr : s.refused = none) (hp : s.phase = .fetchMicro)
    (hslot : s.cfg.controlSlot s.mpc = some w) (hsh : s.cfg.acceptShift3 = true ∨ (decode w.toNat).sh < 3) :
    run 3 s = .next { s.computed w with phase := .writebackNext } :=
  run_three_of_steps ((fetchLatchesWord s hr hp).1 w hslot) (step_decodeRead _ hr rfl) (step_aluExec _ hr rfl hsh)

theorem run_one (s : State) : run 1 s = step s := by
  obtain ⟨t, ht⟩ := step_next s
  rw [run_succ 0 s t ht, ht, run]

/-! ### Phase 4 -/

theorem State.cacheRead_with_phase (s : State) (p : Phase) (a : Nat) :
    State.cacheRead { s with phase := p } a =
      ((s.cacheRead a).1, (s.cacheRead a).2.1, { (s.cacheRead a).2.2 with phase := p }) := by
  cases hhit : s.cacheHit a with
  | true => rw [s.cacheRead_hit a hhit]; exact State.cacheRead_hit { s with phase := p } a hhit
  | false => rw [s.cacheRead_miss a hhit]; exact State.cacheRead_miss { s with phase := p } a hhit

theorem State.cacheWrite_with_phase (s : State) (p : Phase) (a : Nat) (v : Word) :
    (State.cacheWrite { s with phase := p } a v).2 = { (s.cacheWrite a v).2 with phase := p } := by
  have hhit : State.cacheHit { s with phase := p } a = s.cacheHit a := rfl
  simp only [State.cacheWrite, State.memWrite, hhit]
  split_ifs <;> rfl

/-- No row reads or writes the counter. -/
theorem exec_with_phase {i : Instr} {s t : State} (p : Phase) (h : exec i s = .next t) :
    exec i { s with phase := p } = .next { t with phase := p } := by
  cases i
  case condDecode =>
    cases hm : s.cfg.mapped (opkey s.regs.ir) with
    | some a => rw [exec_condDecode_mapped s a hm] at h; cases h; exact exec_condDecode_mapped { s with phase := p } a hm
    | none => rw [exec_condDecode_unmapped s hm] at h; cases h; exact exec_condDecode_unmapped { s with phase := p } hm
  case shReserved3 => cases h; rw [exec_shReserved3]; dsimp only; split <;> rfl
  case rd => cases h; rw [exec_rd, s.cacheRead_with_phase]; rfl
  case wr => cases h; rw [exec_wr, s.cacheWrite_with_phase]; rfl
  all_goals cases h; rfl

theorem execAll_with_phase {is : List Instr} {s t : State} (p : Phase) (h : execAll is s = .next t) :
    execAll is { s with phase := p } = .next { t with phase := p } := by
  induction is generalizing s with
  | nil => cases h; rfl
  | cons i is ih =>
    obtain ⟨u, hu, hrun⟩ := Result.andThen_eq_next _ _ _ h
    rw [execAll, exec_with_phase p hu, Result.andThen_next, ih hrun]

/-- Settles O44: phases 1 to 3 leave the computed state, and phase 4 runs the word's rows on it. -/
theorem microcycleSummary : Obligations.MicrocycleSummary := by
  intro s w hr hp hslot hne
  have hwidth : (decode w.toNat).sh < 4 := bitField_lt w.toNat 26 2
  have hsh : (decode w.toNat).sh < 3 := Nat.lt_of_le_of_ne (Nat.le_of_lt_succ hwidth) hne
  obtain ⟨v, hv⟩ := execAll_next (decode w.toNat).writebackRows (s.computed w)
  have hthree := run_three_of_populated s w hr hp hslot (.inr hsh)
  have hfour : step { s.computed w with phase := .writebackNext } = .next { v with phase := .fetchMicro } :=
    step_writebackNext _ { v with phase := .writebackNext } hr rfl (execAll_with_phase _ hv)
  have hphase : v.phase = .fetchMicro := ((s.computed w).writebackNext_keeps v _ hv).2.trans hp
  refine ⟨s.computed w, v, rfl, rfl, rfl, ?_, flagZ_iff_toNat_eq_zero _, flagN_iff_le_toNat _, hv, ?_⟩
  · exact (toNat_shValue hsh _).trans (congrArg _ (toNat_aluValue _ _ _))
  · rw [run_add 3 1 s _ hthree, run_one, hfour, ← hphase]

/-- Settles O48: the flags are not read in phases 1 to 3, which write them anew; at an empty slot the microcycle is that of the
all-zero word, which fixes both. -/
theorem flagsNeverCarryOver : Obligations.FlagsNeverCarryOver := by
  intro s n z hr hp hsh
  cases hslot : s.cfg.controlSlot s.mpc with
  | none => rw [emptySlotRecovers s hr hp hslot, emptySlotRecovers { s with n := n, z := z } hr hp hslot]
  | some w =>
    have hwidth : (decode w.toNat).sh < 4 := bitField_lt w.toNat 26 2
    have haccept : s.cfg.acceptShift3 = true ∨ (decode w.toNat).sh < 3 :=
      hsh.imp_right fun hne => Nat.lt_of_le_of_ne (Nat.le_of_lt_succ hwidth) (hne w hslot)
    rw [run_add 3 1 s _ (run_three_of_populated s w hr hp hslot haccept),
      run_add 3 1 _ _ (run_three_of_populated { s with n := n, z := z } w hr hp hslot haccept)]
    rfl

/-! ### The all-zero word -/

/-- Settles O41: the row's exact effect, the opcode table's mask and match for it, and the fetch of 0 before its three phases. -/
theorem allZeroWordMicrocycle : Obligations.AllZeroWordMicrocycle := by
  refine ⟨exec_nopAllZero, fun w => ?_, fun s hr hp hslot => ?_⟩
  · have hword : w &&& 0x1FFFFFFFF = w % 2 ^ 33 := Nat.and_two_pow_sub_one_eq_mod w 33
    rw [mem_rows_decode_iff, Laws.RowMatch.matchesWord_iff, ← hword]
    simp [Instr.mask, Instr.pattern, Instr.operandMask, Instr.operandBits]
  · rw [run_succ 3 s _ ((fetchLatchesWord s hr hp).1 0 hslot),
      run_three_of_mir_zero { s with mir := 0, phase := .decodeRead } hr rfl rfl, ← hp]

/-! ### Faults over a microcycle -/

/-- One microcycle of an empty slot 0: it is due again after it, with the event recorded. -/
theorem run_four_of_empty_fetch_entry (s : State) (hr : s.refused = none) (hp : s.phase = .fetchMicro) (hmpc : s.mpc = 0)
    (hslot : s.cfg.controlSlot 0 = none) :
    ∃ u, run 4 s = .next u ∧ (u.refused = none ∧ u.phase = .fetchMicro ∧ u.mpc = 0 ∧ u.cfg.controlSlot 0 = none) ∧
      u.faults = s.faults ++ [.unpopulatedControlStore 0] ∧ u.regs = s.regs ∧ u.mem = s.mem ∧ u.lines = s.lines :=
  ⟨_, emptySlotRecovers s hr hp (hmpc ▸ hslot), ⟨hr, hp, rfl, hslot⟩, by rw [hmpc], rfl, rfl, rfl⟩

/-- Settles O40: by induction on the microcycles, each of which is the recovery from the empty slot 0. -/
theorem emptyFetchEntryLoops : Obligations.EmptyFetchEntryLoops := by
  intro s k hr hp hmpc hslot
  induction k generalizing s with
  | zero => exact ⟨s, rfl, hmpc, hp, by simp, rfl, rfl, rfl⟩
  | succ k ih =>
    obtain ⟨u, hcycle, ⟨hur, hup, humpc, huslot⟩, hlog, hregs, hmem, hlines⟩ :=
      run_four_of_empty_fetch_entry s hr hp hmpc hslot
    obtain ⟨t, hrun, htmpc, htp, htlog, htregs, htmem, htlines⟩ := ih u hur hup humpc huslot
    refine ⟨t, ?_, htmpc, htp, ?_, htregs.trans hregs, htmem.trans hmem, htlines.trans hlines⟩
    · rw [Nat.mul_succ, Nat.add_comm, run_add 4 (4 * k) s u hcycle, hrun]
    · rw [htlog, hlog, List.replicate_succ, List.append_assoc, List.singleton_append]

theorem run_of_refused {s : State} (h : s.refused ≠ none) (k : Nat) : run k s = .next s := by
  induction k with
  | zero => rfl
  | succ k ih => rw [run_succ k s s (step_of_refused s h), ih]

/-- Phase 2 hands an unchanged log to phase 3. -/
theorem step_decodeRead_faults (s : State) (hr : s.refused = none) (hp : s.phase = .decodeRead) :
    ∃ t, step s = .next t ∧ t.phase = .aluExec ∧ t.faults = s.faults :=
  ⟨_, step_decodeRead s hr hp, rfl, rfl⟩

/-- At a populated slot phases 1 to 3 record nothing. -/
theorem run_three_faults (s : State) (w : MicroWord) (hr : s.refused = none) (hp : s.phase = .fetchMicro)
    (hslot : s.cfg.controlSlot s.mpc = some w) : ∃ t, run 3 s = .next t ∧ t.faults = s.faults := by
  have hfetch := (fetchLatchesWord s hr hp).1 w hslot
  obtain ⟨t, hread, hphase, hlog⟩ := step_decodeRead_faults { s with mir := w, phase := .decodeRead } hr rfl
  obtain ⟨u, halu⟩ := step_next t
  exact ⟨u, run_three_of_steps hfetch hread halu,
    (step_faults_of_phase halu (by simp [hphase]) (by simp [hphase])).trans hlog⟩

/-- Settles O38: at an empty slot the microcycle's one event is the fetch's; at a populated one phases 1 to 3 record none, and
the fourth step one at most. -/
theorem atMostOneFaultPerMicrocycle : Obligations.AtMostOneFaultPerMicrocycle := by
  intro s t hp h
  by_cases hr : s.refused = none
  case neg =>
    rw [run_of_refused hr] at h
    cases h
    exact ⟨[], by simp⟩
  cases hslot : s.cfg.controlSlot s.mpc with
  | none =>
    rw [emptySlotRecovers s hr hp hslot] at h
    cases h
    exact ⟨[_], rfl, by simp⟩
  | some w =>
    obtain ⟨u, hthree, hlog⟩ := run_three_faults s w hr hp hslot
    rw [run_add 3 1 s u hthree, run_one] at h
    obtain ⟨e, he, hlen, -⟩ := faultLogOnlyGrows u t h
    exact ⟨e, hlog ▸ he, hlen⟩

end Sys2Proof.Machine
end

section
/-! PROOFS. Construction and preload (spec/70_reset_and_hazards.md R230, R231): the start state, what the preload leaves in
memory, and that both meet the invariant. -/

namespace Sys2Proof.Machine

/-! ### The start state -/

theorem State.memRead_initial (cfg : Config) (a : Nat) : (State.initial cfg).memRead a = 0 := by
  unfold State.memRead
  split <;> rfl

theorem State.line_initial (cfg : Config) (k : Nat) : (State.initial cfg).line k = CacheLine.reset cfg.blockSize := by
  by_cases hk : k < cfg.cacheSize <;> simp [State.line, State.initial, List.getD, hk]

theorem CacheLine.word_reset (blockSize o : Nat) : (CacheLine.reset blockSize).word o = 0 := by
  by_cases ho : o < blockSize <;> simp [CacheLine.word, CacheLine.reset, List.getD, ho]

theorem Regs.read_reset_of_writable {i : RegIdx} (h : Oracle.writable i) : Regs.reset.read i = 0 := by
  unfold Oracle.writable at h
  revert i
  decide

/-- Settles O54: field by field; every line is the reset line. -/
theorem constructionState : Obligations.ConstructionState := by
  intro cfg i k o
  refine ⟨Regs.read_reset_of_writable, rfl, rfl, rfl, rfl, rfl, rfl, rfl, rfl, rfl, List.length_replicate, fun _ => ?_⟩
  rw [State.line_initial]
  exact ⟨rfl, rfl, List.length_replicate, CacheLine.word_reset _ o⟩

theorem State.memoryWellFormed_initial (cfg : Config) : (State.initial cfg).MemoryWellFormed :=
  ⟨⟨List.Pairwise.nil, nofun⟩, nofun⟩

/-- The start state with any memory in canonical form meets the invariant: no line is valid, so coherence asks nothing. -/
theorem State.inv_initial_with_mem {cfg : Config} {m : Memory} (h : cfg.WellFormed)
    (hmem : State.MemoryWellFormed { State.initial cfg with mem := m }) :
    State.Inv { State.initial cfg with mem := m } := by
  refine ⟨h, hmem, ⟨List.length_replicate, fun l hl => ?_⟩, fun i _ hvalid => ?_, nofun⟩
  · rw [List.eq_of_mem_replicate hl]
    exact List.length_replicate
  · have hinvalid : (State.line { State.initial cfg with mem := m } i).valid = false :=
      congrArg CacheLine.valid (State.line_initial cfg i)
    rw [hinvalid] at hvalid
    cases hvalid

/-- Settles O51: the start state of the reference parameters, which are well formed. -/
theorem resetMeetsInvariant : Obligations.ResetMeetsInvariant :=
  State.inv_initial_with_mem (by decide) (State.memoryWellFormed_initial _)

/-! ### The preload -/

/-- The preload changes nothing but memory. -/
theorem State.preloadFrom_eq_with_mem (j : Nat) (img : List Word) (s : State) :
    State.preloadFrom j img s = { s with mem := (State.preloadFrom j img s).mem } := by
  induction img generalizing j s with
  | nil => rfl
  | cons w img ih =>
    have hwrite := s.memWrite_eq_with_mem j w
    rw [State.preloadFrom, ih, hwrite]

theorem State.memoryWellFormed_preloadFrom (j : Nat) (img : List Word) (s : State) (h : s.MemoryWellFormed) :
    (State.preloadFrom j img s).MemoryWellFormed := by
  induction img generalizing j s with
  | nil => exact h
  | cons w img ih => exact ih (j + 1) (s.memWrite j w) (s.memoryWellFormed_memWrite j w h)

/-- What memory reads after the preload of an image from address `j` on: the image's words at the addresses it covers. -/
theorem State.memRead_preloadFrom (j : Nat) (img : List Word) (s : State) (a : Nat) (h : s.MemoryWellFormed) :
    (State.preloadFrom j img s).memRead a =
      if j ≤ a ∧ a - j < img.length ∧ a < s.cfg.memorySize then img.getD (a - j) 0 else s.memRead a := by
  induction img generalizing j s with
  | nil => simp [State.preloadFrom]
  | cons w img ih =>
    rw [State.preloadFrom, ih (j + 1) _ (s.memoryWellFormed_memWrite j w h), s.memRead_memWrite j a w h.1,
      State.memWrite_cfg]
    obtain hlt | rfl | hgt := Nat.lt_trichotomy a j
    · have h1 : ¬ j + 1 ≤ a := by omega
      have h2 : ¬ j ≤ a := by omega
      have h3 : a ≠ j := by omega
      simp [h1, h2, h3]
    · simp
    · obtain ⟨d, rfl⟩ : ∃ d, a = j + 1 + d := ⟨a - (j + 1), by omega⟩
      have hhead : j + 1 + d ≠ j := by omega
      have htail : j + 1 + d - (j + 1) = d ∧ j + 1 + d - j = d + 1 := by omega
      have hcover : j + 1 ≤ j + 1 + d ∧ j ≤ j + 1 + d := by omega
      simp [hhead, htail, hcover]

/-- Settles O53: memory starts at 0, and the preload from address 0 puts the image there. -/
theorem preloadedImageIsMemory : Obligations.PreloadedImageIsMemory := by
  intro cfg img a
  refine ⟨State.memRead_initial cfg a, ?_, State.preloadFrom_eq_with_mem 0 img _⟩
  rw [State.preload, State.memRead_preloadFrom 0 img _ a (State.memoryWellFormed_initial cfg), State.memRead_initial]
  change (if 0 ≤ a ∧ a < img.length ∧ a < cfg.memorySize then img.getD a 0 else 0) = _
  by_cases hlen : a < img.length
  · simp [hlen]
  · simp [hlen, List.getD]

/-! ### construct -/

theorem State.inv_preload {cfg : Config} (h : cfg.WellFormed) (img : List Word) :
    ((State.initial cfg).preload img).Inv := by
  have hmem := State.memoryWellFormed_preloadFrom 0 img (State.initial cfg) (State.memoryWellFormed_initial cfg)
  rw [State.preload, State.preloadFrom_eq_with_mem]
  rw [State.preloadFrom_eq_with_mem] at hmem
  exact State.inv_initial_with_mem h hmem

theorem construct_isSome_iff (cfg : Config) (img : List Nat) :
    (construct cfg img).isSome ↔ cfg.WellFormed ∧ ImageWellFormed img := by
  unfold construct
  split
  · next h => exact iff_of_true rfl h
  · next h => exact iff_of_false Bool.false_ne_true h

theorem construct_eq_some_iff (cfg : Config) (img : List Nat) (s : State) :
    construct cfg img = some s ↔ (cfg.WellFormed ∧ ImageWellFormed img) ∧
      (State.initial cfg).preload (img.map (BitVec.ofNat 16)) = s := by
  simp [construct]

/-- Settles O52: construct's own check is the condition, and the state it gives is the preloaded start state. -/
theorem constructionMeetsInvariant : Obligations.ConstructionMeetsInvariant := by
  intro cfg img
  refine ⟨?_, fun s hs => ?_⟩
  · rw [construct_isSome_iff]
    simp only [Config.WellFormed, and_assoc]
    exact Iff.rfl
  · obtain ⟨⟨hcfg, -⟩, rfl⟩ := (construct_eq_some_iff cfg img s).mp hs
    have hmem := State.preloadFrom_eq_with_mem 0 (img.map (BitVec.ofNat 16)) (State.initial cfg)
    refine ⟨State.inv_preload hcfg _, ?_⟩
    rw [State.preload, hmem]
    exact ⟨rfl, rfl, rfl, rfl⟩

end Sys2Proof.Machine
end
